-- ==== Sys2Proof/Word.lean ====
section
/-! DEFINITION. The word types of the block: 00_scope.md R7 and R10. -/

namespace Sys2Proof

/-- A byte: 8 bits, an unsigned value 0..255 (R10). -/
abbrev Byte := BitVec 8

/-- A 16-bit register: FLG_BD (R7). -/
abbrev Word16 := BitVec 16

/-- A 31-bit field: the length of a block (R7). -/
abbrev Word31 := BitVec 31

/-- A 32-bit field or register (R7). -/
abbrev Word32 := BitVec 32

/-- A 64-bit field: the content size (R7). -/
abbrev Word64 := BitVec 64

/-- Byte-addressed storage in one canonical form (`Memory.wf`): the listed addresses rise strictly, and an
unlisted address holds no value. It backs the payload buffer and the host's destination (20_memory.md R51). -/
abbrev Memory := List Host.Cell

/-- A buffer of `size` bytes at offsets 0..size-1, with the bytes that are known in `cells`. -/
structure Buffer where
  size : Nat
  cells : Memory
deriving DecidableEq, Repr, Inhabited

end Sys2Proof
end

