-- ==== Sys2Proof/Machine/Memory.lean ====
section
/-! DEFINITION. The operations over byte-addressed storage (20_memory.md R51, R52, R54). Widths above one byte are
built from the one-byte operations here and nowhere else. -/

namespace Sys2Proof

/-- The canonical form: addresses strictly rising. An unlisted address reads as no value, so no entry can equal what
an unlisted address reads as (log 10). -/
abbrev Memory.wf (m : Memory) : Prop := (m.map Prod.fst).Pairwise (· < ·)

/-- The byte at an address, or no value when nothing has written it. -/
def Memory.read : Memory → Nat → Option Byte
  | [], _ => none
  | (a', b) :: m, a => if a = a' then some b else Memory.read m a

/-- One byte written at an address, at its place in the rising order. -/
def Memory.write : Memory → Nat → Byte → Memory
  | [], a, b => [(a, b)]
  | (a', b') :: m, a, b =>
    if a < a' then (a, b) :: (a', b') :: m
    else if a = a' then (a, b) :: m
    else (a', b') :: Memory.write m a b

/-- `MemRead(space, a, n)` of R10: the n bytes from a, or no value when one of them was never written. -/
def Memory.readBytes (m : Memory) : Nat → Nat → Option (List Byte)
  | _, 0 => some []
  | a, n + 1 =>
    match Memory.read m a with
    | none => none
    | some b => (Memory.readBytes m (a + 1) n).map (b :: ·)

/-- `MemWrite(space, a, n, v)` of R10: the bytes v from address a upward. -/
def Memory.writeBytes (m : Memory) : Nat → List Byte → Memory
  | _, [] => m
  | a, b :: bs => Memory.writeBytes (Memory.write m a b) (a + 1) bs

/-- A well-formed buffer: canonical cells, each inside the buffer. -/
abbrev Buffer.wf (b : Buffer) : Prop := Memory.wf b.cells ∧ ∀ c ∈ b.cells, c.1 < b.size

/-- The byte a buffer holds at an offset. -/
def Buffer.read (b : Buffer) (a : Nat) : Option Byte := Memory.read b.cells a

/-- The n bytes a buffer holds from an offset. -/
def Buffer.readBytes (b : Buffer) (a n : Nat) : Option (List Byte) := Memory.readBytes b.cells a n

/-- A buffer with one byte written. The callers check that the offset is inside the buffer. -/
def Buffer.write (b : Buffer) (a : Nat) (v : Byte) : Buffer := { b with cells := Memory.write b.cells a v }

/-- A buffer with bytes written from an offset. The callers check that they fit. -/
def Buffer.writeBytes (b : Buffer) (a : Nat) (vs : List Byte) : Buffer :=
  { b with cells := Memory.writeBytes b.cells a vs }

/-- A new byte array of n bytes whose contents are unspecified (41_header_parser.md R111, 10_state.md R31). -/
def Buffer.fresh (n : Nat) : Buffer := { size := n, cells := [] }

end Sys2Proof
end

