-- ==== Sys2Proof/Syntax.lean ====
section
/-! DEFINITION. The block's instructions: one constructor per row of spec/opcode_table.json. The wire records
(30_encoding.md sections 1 to 5) carry every bit of their field, the ignored ones too. The host commands (section 6)
carry the operands their rule uses. -/

namespace Sys2Proof

/-- A position in the stream grammar where one fixed-width record is read (30_encoding.md R70, R82). What a byte means
depends on it. -/
inductive Position where
  | magic
  | flgBd
  | csize
  | dictId
  | hc
  | blockWord
  | blockChecksum
  | contentChecksum
deriving DecidableEq, Repr

/-- The fields a truncated read can name (42_primitive_reader.md R131, R132, R136). -/
inductive Field where
  | fixed (p : Position)
  | payload
deriving DecidableEq, Repr

/-- One command as it lies on the command port: the 3-bit code and the operands (30_encoding.md R85). The spec gives the
operands no bits, so they are plain values; log 8. -/
structure HostCmd where
  code : BitVec 3
  dst : Buffer
  off : Nat
  maxLength : Int
  cancel : Bool
deriving DecidableEq, Repr

inductive Instr where
  /-- MAGIC: the four bytes 04 22 4D 18 in a magic position (41_header_parser.md R101). -/
  | magic
  /-- BAD_MAGIC: any other four bytes in a magic position (R102). -/
  | badMagic (value : Word32)
  /-- END_OF_STREAM: end of input at the first byte of a magic position (R101). -/
  | endOfStream
  /-- FLG_BD: the two flag bytes, FLG in bits 7:0 and BD in bits 15:8 (R104). -/
  | flgBd (value : Word16)
  /-- CSIZE: the content size, consumed and not interpreted (R106). -/
  | csize (value : Word64)
  /-- DICTID: the dictionary ID (R107). -/
  | dictId (value : Word32)
  /-- HC: the stored header checksum (R109). -/
  | hc (value : Byte)
  /-- BLOCK_END: the block word 0x00000000 (43_block_reader.md R153). -/
  | blockEnd
  /-- BLOCK_RAW_EMPTY: the block word 0x80000000 (R156). -/
  | blockRawEmpty
  /-- BLOCK_RAW: a block word with bit 31 set and LEN not 0 (R160). -/
  | blockRaw (len : Word31)
  /-- BLOCK_CMP: a block word with bit 31 clear and LEN not 0 (R161). -/
  | blockCmp (len : Word31)
  /-- BLOCK_CHECKSUM: the four bytes after a payload when FLG[4] = 1 (R159). -/
  | blockChecksum (value : Word32)
  /-- CONTENT_CHECKSUM: the four bytes after the terminator when FLG[2] = 1 (R154). -/
  | contentChecksum (value : Word32)
  /-- READ: command code 0 (44_drain_and_host.md R192). -/
  | read (dst : Buffer) (off : Nat) (maxLength : Int)
  /-- READ_ASYNC: command code 1 (R201). -/
  | readAsync (dst : Buffer) (off : Nat) (maxLength : Int) (cancel : Bool)
  /-- CLOSE: command code 2 (R202). -/
  | close
  /-- SEEK: command code 3, operands ignored (R203). -/
  | seek
  /-- WRITE: command code 4, operands ignored (R203). -/
  | write
  /-- SET_LENGTH: command code 5, operands ignored (R203). -/
  | setLength
  /-- The unassigned command code 6 (R203). -/
  | unassigned6
  /-- The unassigned command code 7 (R203). -/
  | unassigned7
deriving DecidableEq, Repr

end Sys2Proof
end

