-- ==== Sys2Proof/WellFormed.lean ====
section
/-! DEFINITION. Which terms of Instr stand for a row of the opcode table. The three classes of a block word exclude each
other by priority (30_encoding.md R78), and so do MAGIC and BAD_MAGIC (R72); log 25. -/

namespace Sys2Proof

/-- The magic constant 0x184D2204 (00_scope.md R6, 30_encoding.md R72). -/
abbrev magicConstant : Word32 := 0x184D2204#32

/-- Each check is the row's own condition: BAD_MAGIC is any value but the magic; a BLOCK_RAW or BLOCK_CMP has a length
other than 0, since those two words are BLOCK_RAW_EMPTY and BLOCK_END; a destination buffer is in canonical form. -/
def Instr.wf : Instr → Bool
  | .magic => true
  | .badMagic v => decide (v ≠ magicConstant)
  | .endOfStream => true
  | .flgBd _ => true
  | .csize _ => true
  | .dictId _ => true
  | .hc _ => true
  | .blockEnd => true
  | .blockRawEmpty => true
  | .blockRaw n => decide (n ≠ 0#31)
  | .blockCmp n => decide (n ≠ 0#31)
  | .blockChecksum _ => true
  | .contentChecksum _ => true
  | .read d _ _ => decide (Buffer.wf d)
  | .readAsync d _ _ _ => decide (Buffer.wf d)
  | .close => true
  | .seek => true
  | .write => true
  | .setLength => true
  | .unassigned6 => true
  | .unassigned7 => true

end Sys2Proof
end

