-- ==== Sys2Proof/Decode.lean ====
section
/-! DEFINITION. Decoding, total on any bytes at any position, and encoding (30_encoding.md). A wire record is read at a
position of the grammar; a host command arrives as a code with operands. -/

namespace Sys2Proof

/-- The little-endian value of bytes in wire order: `le(b0, …)` is the sum of `b_i << 8i` (00_scope.md R10,
20_memory.md R55). -/
def le : List Byte → Nat
  | [] => 0
  | b :: bs => b.toNat + 256 * le bs

/-- The n bytes, least significant first, whose little-endian value is v modulo 256^n. -/
def toLe : Nat → Nat → List Byte
  | 0, _ => []
  | n + 1, v => BitVec.ofNat 8 v :: toLe n (v / 256)

/-- The width in bytes of the record at a position (20_memory.md R59). -/
def Position.width : Position → Nat
  | .magic => 4
  | .flgBd => 2
  | .csize => 8
  | .dictId => 4
  | .hc => 1
  | .blockWord => 4
  | .blockChecksum => 4
  | .contentChecksum => 4

/-- Why bytes at a position are no record. -/
inductive DecodeError where
  /-- Fewer bytes than the field needs, and not the clean end of a magic position (42_primitive_reader.md R131, R132). -/
  | truncated (p : Position) (got need : Nat)
  /-- Bytes left over after the record, where exactly one record was to be read. -/
  | trailingBytes (p : Position) (extra : Nat)
deriving DecidableEq, Repr

/-- A magic position holds MAGIC or BAD_MAGIC (30_encoding.md R72, R82). -/
def decodeMagicWord (v : Word32) : Instr :=
  if v = magicConstant then .magic else .badMagic v

/-- Bit 31 of a block word: the payload is raw (43_block_reader.md R152). -/
def blockWordRaw (w : Word32) : Bool := w.getLsbD 31

/-- Bits 30:0 of a block word: the payload's length (R152). -/
def blockWordLen (w : Word32) : Word31 := w.extractLsb' 0 31

/-- The block word of a flag and a length (30_encoding.md R78). -/
def blockWordOf (raw : Bool) (len : Word31) : Word32 := BitVec.ofBool raw ++ len

/-- The classes of a block word in their priority order (R78); the word 0x80000000 is the row BLOCK_RAW_EMPTY (R156). -/
def decodeBlockWord (w : Word32) : Instr :=
  if w = 0x00000000#32 then .blockEnd
  else if w = 0x80000000#32 then .blockRawEmpty
  else if blockWordRaw w then .blockRaw (blockWordLen w)
  else .blockCmp (blockWordLen w)

/-- The record that a full field's bytes stand for, at each position (R81). -/
def decodeField (p : Position) (bs : List Byte) : Instr :=
  match p with
  | .magic => decodeMagicWord (BitVec.ofNat 32 (le bs))
  | .flgBd => .flgBd (BitVec.ofNat 16 (le bs))
  | .csize => .csize (BitVec.ofNat 64 (le bs))
  | .dictId => .dictId (BitVec.ofNat 32 (le bs))
  | .hc => .hc (BitVec.ofNat 8 (le bs))
  | .blockWord => decodeBlockWord (BitVec.ofNat 32 (le bs))
  | .blockChecksum => .blockChecksum (BitVec.ofNat 32 (le bs))
  | .contentChecksum => .contentChecksum (BitVec.ofNat 32 (le bs))

/-- Decoding at a position: the record and the bytes after it. No bytes at all in a magic position are END_OF_STREAM
(41_header_parser.md R101); too few bytes anywhere else are a truncation. -/
def decodeAt (p : Position) (bs : List Byte) : Except DecodeError (Instr × List Byte) :=
  if p = .magic ∧ bs = [] then .ok (.endOfStream, [])
  else if bs.length < p.width then .error (.truncated p bs.length p.width)
  else .ok (decodeField p (bs.take p.width), bs.drop p.width)

/-- The command a port entry stands for: every 3-bit code is assigned or refused by its own row, so none is rejected here
(30_encoding.md R85). -/
def decodeCommand (c : HostCmd) : Instr :=
  match c.code.toNat with
  | 0 => .read c.dst c.off c.maxLength
  | 1 => .readAsync c.dst c.off c.maxLength c.cancel
  | 2 => .close
  | 3 => .seek
  | 4 => .write
  | 5 => .setLength
  | 6 => .unassigned6
  | _ => .unassigned7

/-- What an instruction is encoded as: the bytes of one record at its position, or one entry of the command port. -/
inductive Encoding where
  | wire (p : Position) (bytes : List Byte)
  | port (cmd : HostCmd)
deriving DecidableEq, Repr

/-- Decoding of exactly one instruction. -/
def decode (e : Encoding) : Except DecodeError Instr :=
  match e with
  | .port c => .ok (decodeCommand c)
  | .wire p bs =>
    match decodeAt p bs with
    | .error err => .error err
    | .ok (i, []) => .ok i
    | .ok (_, b :: rest) => .error (.trailingBytes p (b :: rest).length)

/-- A port entry for a command whose operands are ignored or absent. -/
def bareCommand (code : BitVec 3) : HostCmd :=
  { code := code, dst := { size := 0, cells := [] }, off := 0, maxLength := 0, cancel := false }

/-- The encoder, written from 30_encoding.md R71, R78 and R85. -/
def encode : Instr → Encoding
  | .magic => .wire .magic [0x04#8, 0x22#8, 0x4D#8, 0x18#8]
  | .badMagic v => .wire .magic (toLe 4 v.toNat)
  | .endOfStream => .wire .magic []
  | .flgBd v => .wire .flgBd (toLe 2 v.toNat)
  | .csize v => .wire .csize (toLe 8 v.toNat)
  | .dictId v => .wire .dictId (toLe 4 v.toNat)
  | .hc v => .wire .hc [v]
  | .blockEnd => .wire .blockWord [0x00#8, 0x00#8, 0x00#8, 0x00#8]
  | .blockRawEmpty => .wire .blockWord [0x00#8, 0x00#8, 0x00#8, 0x80#8]
  | .blockRaw n => .wire .blockWord (toLe 4 (blockWordOf true n).toNat)
  | .blockCmp n => .wire .blockWord (toLe 4 (blockWordOf false n).toNat)
  | .blockChecksum v => .wire .blockChecksum (toLe 4 v.toNat)
  | .contentChecksum v => .wire .contentChecksum (toLe 4 v.toNat)
  | .read d o m => .port { code := 0#3, dst := d, off := o, maxLength := m, cancel := false }
  | .readAsync d o m c => .port { code := 1#3, dst := d, off := o, maxLength := m, cancel := c }
  | .close => .port (bareCommand 2#3)
  | .seek => .port (bareCommand 3#3)
  | .write => .port (bareCommand 4#3)
  | .setLength => .port (bareCommand 5#3)
  | .unassigned6 => .port (bareCommand 6#3)
  | .unassigned7 => .port (bareCommand 7#3)

/-- The reading of a bare table word, whose position in the stream the table gives in words only (log 12): no bits are
the end of the stream; a byte up to 7 is a 3-bit command code and a larger byte a header checksum; two bytes are FLG_BD;
four bytes are the magic if they are its value, else a block word; eight bytes are a content size. -/
def tableEncoding (nbits w : Nat) : Option Encoding :=
  if nbits = 0 then some (.wire .magic [])
  else if nbits ≤ 8 then
    if w < 8 then some (.port (bareCommand (BitVec.ofNat 3 w))) else some (.wire .hc (toLe 1 w))
  else if nbits ≤ 16 then some (.wire .flgBd (toLe 2 w))
  else if nbits ≤ 32 then
    if w = 0x184D2204 then some (.wire .magic (toLe 4 w)) else some (.wire .blockWord (toLe 4 w))
  else if nbits ≤ 64 then some (.wire .csize (toLe 8 w))
  else none

/-- The instruction the decoder reads from a word of the opcode table. -/
def decodeTableWord (nbits w : Nat) : Option Instr :=
  match tableEncoding nbits w with
  | none => none
  | some e =>
    match decode e with
    | .ok i => some i
    | .error _ => none

end Sys2Proof
end

