-- ==== Sys2Proof/Config.lean ====
section
/-! DEFINITION. The parameters of the model that the spec leaves OPEN (00_scope.md R6, R8, R9) and the one free
value (44_drain_and_host.md R201). Each is an opaque constant: nothing can evaluate it or prove a value of it.
The launch parameters INPUT and VERIFY_* are plain data and stand in State. -/

namespace Sys2Proof

/-- The parsed, immutable settings of one frame (10_state.md R24). -/
structure FrameDescriptor where
  contentChecksumEnabled : Bool
  blockChainingEnabled : Bool
  blockChecksumEnabled : Bool
  dictionaryId : Option Word32
  maxBlockSize : Nat
deriving DecidableEq, Repr, Inhabited

/-- The fault a codec reports (R9). The spec gives it no content, so it is a number without a meaning.
DESIGN CHOICE, log 3. -/
structure CodecFault where
  code : Nat
deriving DecidableEq, Repr, Inhabited

/-- The answer of one codec call: `Result(Bytes, CodecFault)` of R9. -/
inductive CodecResult where
  | ok (out : List Byte)
  | err (fault : CodecFault)
deriving DecidableEq, Repr, Inhabited

/-- HASH32 (R8): pure and total, and nothing more is assumed of it. Log 3. -/
opaque Config.hash32 : List Byte → Word32

/-- CODEC.decode (R9): descriptor, history, payload. Pure and total, and nothing more is assumed of it. Log 3. -/
opaque Config.codecDecode : FrameDescriptor → List Byte → List Byte → CodecResult

/-- The cancellation draw of READ_ASYNC (R201): whether the n-th draw since construction honours the request.
A FREE VALUE, "chosen by a draw the host does not control". Log 4. -/
opaque Config.cancelDraw : Nat → Bool

end Sys2Proof
end

