-- ==== Sys2Proof/Machine/State.lean ====
section
/-! DEFINITION. The machine's state, plain data (10_state.md), the reasons it can stop, and the state after reset
(70_reset_and_hazards.md R260). -/

namespace Sys2Proof.Machine

/-- The lifecycle mode (10_state.md R20, 60_exceptions.md R238). -/
inductive Mode where
  | opened
  | failed
  | closed
deriving DecidableEq, Repr

/-- The frame state machine (10_state.md R26). -/
inductive FrameState where
  | awaitingFrame
  | awaitingBlock
  | haveCompressedBlock
  | haveRawBlock
  | frameTerminated
deriving DecidableEq, Repr

/-- Where the block stands inside a command: between commands, or about to read one record of the READ in progress.
The model's own field; log 5. -/
inductive Phase where
  | idle
  | reading (p : Position)
deriving DecidableEq, Repr

/-- What a CODEC_ERROR records (43_block_reader.md R161). -/
inductive CodecErrorInfo where
  | fault (f : CodecFault)
  | outputTooLarge
deriving DecidableEq, Repr

/-- The block's errors with the info each records (60_exceptions.md R230). -/
inductive BlockError where
  | malformedFrame (value : Word32)
  | headerChecksumMismatch (computed stored : Byte)
  | truncatedStream (field : Field) (got need : Nat)
  | invalidOperation (cmd : BitVec 3)
  | blockTooLarge (blkLen maxBlockSize : Nat)
  | codecError (info : CodecErrorInfo)
  | invalidArgument (off : Nat) (maxLength : Int)
  | instanceFailed (err : BitVec 4)
  | closed
  | cancelled
  | blockChecksumMismatch (computed stored : Word32)
  | contentChecksumMismatch (computed stored : Word32)
deriving DecidableEq, Repr

/-- The result of one command: the observation of a run is the list of these (44_drain_and_host.md R206). -/
inductive CmdResult where
  /-- READ returned `count`; `bytes` are the bytes it wrote to the destination. -/
  | ok (count : Nat) (bytes : List Byte)
  /-- CLOSE completed. -/
  | done
  /-- The command ended with an error. -/
  | error (code : BitVec 4) (info : BlockError)
deriving DecidableEq, Repr

/-- The transient working registers (10_state.md R32). -/
structure Work where
  magic : Word32
  flgBd : Word16
  csize : Word64
  dictReg : Word32
  hcCalc : Byte
  hcRead : Byte
  blkWord : Word32
  blkRaw : Bool
  blkLen : Word31
  bcsReg : Word32
  ccsReg : Word32
  produced : Nat
  remaining : Nat
  delivered : Nat
  dOff : Nat
deriving DecidableEq, Repr

/-- The whole machine: the record S of 10_state.md R20, the working registers, the ports, and the model's own fields. -/
structure State where
  mode : Mode
  err : BitVec 4
  st : FrameState
  pos : Nat
  desc : Option FrameDescriptor
  blk : Option Buffer
  hist : Option (List Byte)
  pending : Nat
  scr : Vector Byte 16
  scur : Nat
  work : Work
  input : List Byte
  srcClosed : Bool
  verifyBlock : Bool
  verifyContent : Bool
  cmds : List HostCmd
  dst : Buffer
  results : List CmdResult
  phase : Phase
  draws : Nat
deriving DecidableEq, Repr

/-- Stops on an access the spec says cannot happen. All safe: each is a stop where the spec gives no behaviour, and none
happens from a state that meets the invariant (Sys2Proof/Safety.lean). -/
inductive Fault where
  /-- A payload or a drain copy would leave its buffer (43_block_reader.md R157, 44_drain_and_host.md R191). Raised by the
  block records and by READ. Safe; log 15. -/
  | outsideBuffer
  /-- A byte of the payload buffer that nothing has written would be read (20_memory.md R52). Raised by the block records.
  Safe; log 10. -/
  | unwrittenByte
  /-- A drain would reach before the start of the history (44_drain_and_host.md R200). Raised by READ. Safe; log 15. -/
  | drainOutsideHistory
  /-- The read loop's fuel ran out, which R207 rules out. Raised by READ and READ_ASYNC. Safe; log 16. -/
  | readDidNotEnd
deriving DecidableEq, Repr

/-- Refusals. All safe: each is a stop where the spec gives the instruction no behaviour. -/
inductive Refusal where
  /-- An instruction without a meaning yet. Raised by exec's refused arms only. Safe. -/
  | notModelled (mnemonic : String)
  /-- A command while another is in progress: no defined result (70_reset_and_hazards.md R271, K19). Raised by the host
  commands. Safe; log 6. -/
  | commandOverlap
  /-- A wire record where the grammar has another position, or none (30_encoding.md R82). Raised by the wire records.
  Safe; log 7. -/
  | outOfPosition
deriving DecidableEq, Repr

/-- The working registers after reset, which the spec leaves unspecified (10_state.md R35): all zero.
DESIGN CHOICE, log 2. -/
def Work.reset : Work :=
  { magic := 0#32, flgBd := 0#16, csize := 0#64, dictReg := 0#32, hcCalc := 0#8, hcRead := 0#8, blkWord := 0#32,
    blkRaw := false, blkLen := 0#31, bcsReg := 0#32, ccsReg := 0#32, produced := 0, remaining := 0, delivered := 0,
    dOff := 0 }

/-- Construction over the empty source (70_reset_and_hazards.md R260). `err` and `scr` are unspecified there and zero here:
DESIGN CHOICE, log 2. The launch parameters: log 1. -/
def State.reset : State :=
  { mode := .opened, err := 0#4, st := .awaitingFrame, pos := 0, desc := none, blk := none, hist := none, pending := 0,
    scr := Vector.replicate 16 0#8, scur := 0, work := Work.reset, input := [], srcClosed := false, verifyBlock := false,
    verifyContent := false, cmds := [], dst := { size := 0, cells := [] }, results := [], phase := .idle, draws := 0 }

/-- Construction over a byte source that will deliver `input`, with the two options (R263), and the commands the host will
issue. -/
def State.launch (input : List Byte) (verifyBlock verifyContent : Bool) (cmds : List HostCmd) : State :=
  { State.reset with input := input, verifyBlock := verifyBlock, verifyContent := verifyContent, cmds := cmds }

end Sys2Proof.Machine
end

