-- ==== Sys2Proof/Machine/Flags.lean ====
section
/-! DEFINITION. The flags of the block: the three descriptor booleans and the two presence bits, all read from FLG_BD
(10_state.md R24, R28, 41_header_parser.md R104, R105). FLG is bits 7:0 and BD bits 15:8. No other bit of FLG_BD is read
by any definition of the model but the header checksum, through the raw bytes. -/

namespace Sys2Proof.Machine

/-- FLG[5] clear: block chaining is enabled. -/
def flgBlockChaining (v : Word16) : Bool := !v.getLsbD 5

/-- FLG[4]: every data block is followed by a block checksum. -/
def flgBlockChecksum (v : Word16) : Bool := v.getLsbD 4

/-- FLG[2]: the terminator is followed by a content checksum. -/
def flgContentChecksum (v : Word16) : Bool := v.getLsbD 2

/-- BD[3]: a content-size field follows. -/
def bdHasContentSize (v : Word16) : Bool := v.getLsbD 11

/-- BD[0]: a dictionary-ID field follows. -/
def bdHasDictionary (v : Word16) : Bool := v.getLsbD 8

/-- BD[6:4]: the block-size code. -/
def bdSizeCode (v : Word16) : BitVec 3 := v.extractLsb' 12 3

end Sys2Proof.Machine
end

