-- ==== Sys2Proof/Machine/Operands.lean ====
section
/-! DEFINITION. Operand assembly: the block-size table, the descriptor of a header, the header checksum of raw bytes and
the argument check of READ (30_encoding.md R81, 41_header_parser.md R108, R110, 44_drain_and_host.md R191). -/

namespace Sys2Proof.Machine

/-- `SIZE(code)` (41_header_parser.md R110): total, with 65536 for every code outside 5, 6, 7. -/
def blockSize (code : BitVec 3) : Nat :=
  if code = 5#3 then 262144
  else if code = 6#3 then 1048576
  else if code = 7#3 then 4194304
  else 65536

/-- The descriptor of a header: the flags of FLG_BD, the dictionary register when BD[0] = 1 (10_state.md R24,
41_header_parser.md R104, R107, R110). -/
def descriptorOf (flgBd : Word16) (dictReg : Word32) : FrameDescriptor :=
  { contentChecksumEnabled := flgContentChecksum flgBd
    blockChainingEnabled := flgBlockChaining flgBd
    blockChecksumEnabled := flgBlockChecksum flgBd
    dictionaryId := if bdHasDictionary flgBd then some dictReg else none
    maxBlockSize := blockSize (bdSizeCode flgBd) }

/-- `(HASH32(bytes) >> 8) & 0xFF` (41_header_parser.md R108, 90_conflicts.md C1). -/
def headerChecksum (bs : List Byte) : Byte := ((Config.hash32 bs >>> 8) &&& 0xFF#32).setWidth 8

/-- HOST_LEN_MAX (00_scope.md R6). -/
def hostLenMax : Nat := 2147483647

/-- The arguments READ refuses (44_drain_and_host.md R191), in unbounded integers (00_scope.md R13). -/
def badReadArguments (dst : Buffer) (off : Nat) (maxLength : Int) : Bool :=
  decide (maxLength < 0 ∨ (hostLenMax : Int) < maxLength ∨ (dst.size : Int) < (off : Int) + maxLength)

/-- The field a truncation in a record at position p names. -/
def Position.field (p : Position) : Field := .fixed p

end Sys2Proof.Machine
end

