-- ==== Sys2Proof/Machine/Ops.lean ====
section
/-! DEFINITION. The shared operations: raising an error, ending a command, the input port and the scratch, the payload
read, frame start and teardown, the drain, and the read loop's choice of what comes next. -/

namespace Sys2Proof.Machine

/-! ## Errors and the end of a command (60_exceptions.md R230, R231) -/

/-- The 4-bit code of an error (R230). -/
def BlockError.code : BlockError → BitVec 4
  | .malformedFrame _ => 1#4
  | .headerChecksumMismatch _ _ => 2#4
  | .truncatedStream _ _ _ => 3#4
  | .invalidOperation _ => 4#4
  | .blockTooLarge _ _ => 5#4
  | .codecError _ => 6#4
  | .invalidArgument _ _ => 7#4
  | .instanceFailed _ => 8#4
  | .closed => 9#4
  | .cancelled => 10#4
  | .blockChecksumMismatch _ _ => 11#4
  | .contentChecksumMismatch _ _ => 12#4

/-- Whether an error sets FAILED (R230). -/
def BlockError.fatal : BlockError → Bool
  | .malformedFrame _ => true
  | .headerChecksumMismatch _ _ => true
  | .truncatedStream _ _ _ => true
  | .invalidOperation _ => false
  | .blockTooLarge _ _ => true
  | .codecError _ => true
  | .invalidArgument _ _ => false
  | .instanceFailed _ => false
  | .closed => false
  | .cancelled => false
  | .blockChecksumMismatch _ _ => true
  | .contentChecksumMismatch _ _ => true

/-- The command in progress ends with a result; the block is between commands again. -/
def finish (r : CmdResult) (s : State) : State :=
  { s with phase := .idle, results := s.results ++ [r] }

/-- The mode and the error register after an error: changed by a fatal one only (R231). -/
def recordError (e : BlockError) (s : State) : State :=
  if e.fatal then { s with mode := .failed, err := e.code } else s

/-- `raise E(info)` (R231): the rest of the command is abandoned, a fatal error sets FAILED, the host gets code and info,
and nothing is rolled back. There is no handler and no return from an error (R236). -/
def raise (e : BlockError) (s : State) : State :=
  finish (.error e.code e) (recordError e s)

/-! ## The input port and the scratch (42_primitive_reader.md) -/

/-- The frame state machine moves (00_scope.md R10: `st <- S`). -/
def setSt (x : FrameState) (s : State) : State := { s with st := x }

/-- The working registers change (00_scope.md R10: `x <- v`). -/
def onWork (f : Work → Work) (s : State) : State := { s with work := f s.work }

/-- One byte of the input is consumed (20_memory.md R61). -/
def advance (s : State) : State := { s with pos := s.pos + 1 }

/-- One byte goes to the payload buffer (42_primitive_reader.md R136). -/
def storePayload (i : Nat) (b : Byte) (s : State) : State := { s with blk := s.blk.map fun buf => Buffer.write buf i b }

/-- `SrcRead()` (R130): one byte, consumed, or no byte at end of input. -/
def srcRead (s : State) : Option (Byte × State) :=
  match s.input[s.pos]? with
  | none => none
  | some b => some (b, advance s)

/-- `scr[scur] <- b; scur <- scur + 1` (R131). -/
def pushScr (b : Byte) (s : State) : State :=
  { s with scr := s.scr.setIfInBounds s.scur b, scur := s.scur + 1 }

/-- `scr[0..scur)`: the raw bytes of the current field group (10_state.md R29). -/
def scratchBytes (s : State) : List Byte := s.scr.toList.take s.scur

/-- `Read0()` (R133): the cursor returns to 0, the contents are not cleared. -/
def read0 (s : State) : State := { s with scur := 0 }

/-- What a fixed-width read ends with: its bytes, no data at a clean end (R132), or the bytes obtained before end of
input. Each carries the state the read left. -/
inductive ReadOut where
  | bytes (bs : List Byte) (s : State)
  | noData (s : State)
  | short (got : Nat) (s : State)

/-- The loop of `readExact` (R131): `left` bytes still to read, `got` obtained before. -/
def readExactFrom (got : Nat) : Nat → State → ReadOut
  | 0, s => .bytes [] s
  | left + 1, s =>
    match srcRead s with
    | none => .short got s
    | some (b, s1) =>
      match readExactFrom (got + 1) left (pushScr b s1) with
      | .bytes bs s2 => .bytes (b :: bs) s2
      | .noData s2 => .noData s2
      | .short g s2 => .short g s2

/-- `readExact(n)` (R131): an expected read, with no clean end. -/
def readExact (n : Nat) (s : State) : ReadOut := readExactFrom 0 n s

/-- `tryReadExact(n)` (R132): end of input at byte 0 is no error. A truncation counts from the field's first byte
(R132's example); log 17. -/
def tryReadExact (n : Nat) (s : State) : ReadOut :=
  match srcRead s with
  | none => .noData s
  | some (b, s1) =>
    match readExactFrom 1 (n - 1) (pushScr b s1) with
    | .bytes bs s2 => .bytes (b :: bs) s2
    | .noData s2 => .noData s2
    | .short g s2 => .short g s2

/-- The read of the record at a position: the magic is the one optional read (R132). -/
def readField (p : Position) (s : State) : ReadOut :=
  if p = .magic then tryReadExact p.width s else readExact p.width s

/-- What the payload read ends with (R136). -/
inductive PayloadOut where
  | complete (s : State)
  | short (got : Nat) (s : State)

/-- The loop of `readPayload` (R136): bytes go to the payload buffer from offset `got`, not to the scratch. -/
def readPayloadFrom (got : Nat) : Nat → State → PayloadOut
  | 0, s => .complete s
  | left + 1, s =>
    match srcRead s with
    | none => .short got s
    | some (b, s1) =>
      readPayloadFrom (got + 1) left (storePayload got b s1)

/-- `readPayload(n)` (R136). -/
def readPayload (n : Nat) (s : State) : PayloadOut := readPayloadFrom 0 n s

/-! ## Frames (41_header_parser.md R111, 43_block_reader.md R155) -/

/-- Commit of a descriptor: a new payload buffer, an empty history, nothing pending (R111). -/
def startFrame (d : FrameDescriptor) (s : State) : State :=
  { s with
    desc := some d, blk := some (Buffer.fresh d.maxBlockSize), hist := some [], pending := 0, st := .awaitingBlock }

/-- `TEARDOWN()` (R155). -/
def teardown (s : State) : State :=
  { s with desc := none, blk := none, hist := none, pending := 0, st := .awaitingFrame }

/-! ## The read loop (44_drain_and_host.md R192) -/

/-- READ returns `delivered`, having written `bytes`. -/
def returnRead (bytes : List Byte) (s : State) : State := finish (.ok s.work.delivered bytes) s

/-- The copy's count `k = min(remaining, pending)` (R197). -/
def drainCount (s : State) : Nat := min s.work.remaining s.pending

/-- The oldest undelivered bytes: `hist[len(hist)-pending .. len(hist)-pending+k)` (R200). -/
def drainBytes (s : State) : List Byte :=
  let h := s.hist.getD []
  (h.drop (h.length - s.pending)).take (drainCount s)

/-- The copy of step 3 (R197, R200): the bytes go to the destination and the counters advance. -/
def drain (s : State) : State :=
  { s with
    dst := Buffer.writeBytes s.dst s.work.dOff (drainBytes s)
    pending := s.pending - drainCount s
    work := { s.work with
      dOff := s.work.dOff + drainCount s
      remaining := s.work.remaining - drainCount s
      delivered := s.work.delivered + drainCount s } }

/-- Steps 3 and 4 of R192: one copy, then READ returns (R197, R198). -/
def drainAndReturn (s : State) : State := returnRead (drainBytes s) (drain s)

/-- The next record is read at position p. -/
def expect (p : Position) (s : State) : State := { s with phase := .reading p }

/-- `HDR_PARSE` begins: `Read0()`, then the magic (41_header_parser.md R100, R101). -/
def enterHeader (s : State) : State := expect .magic (read0 s)

/-- `BLOCK_STEP` begins: `Read0()`, then the block word (43_block_reader.md R150, R151). -/
def enterBlock (s : State) : State := expect .blockWord (read0 s)

/-- Step 2 of R192, with what follows it when bytes are pending. -/
def loopStep2 (s : State) : State :=
  if s.pending = 0 then enterBlock s else drainAndReturn s

/-- One pass of the `while` of R192: the loop condition (R193), then step 1 (R194), then step 2 (R195, R196). -/
def loopTop (s : State) : State :=
  if s.work.remaining = 0 then returnRead [] s
  else
    match s.desc with
    | none => enterHeader s
    | some _ => loopStep2 s

/-! ## The header's order (30_encoding.md R71, R82) -/

/-- The checksum of the scratch, taken before the HC byte is read (41_header_parser.md R108); log 18. -/
def expectHc (s : State) : State :=
  expect .hc (onWork (fun w => { w with hcCalc := headerChecksum (scratchBytes s) }) s)

/-- After CSIZE, or after FLG_BD without it: DICTID when BD[0] = 1, else HC (R107). -/
def expectDictOrHc (s : State) : State :=
  if bdHasDictionary s.work.flgBd then expect .dictId s else expectHc s

/-- After FLG_BD: CSIZE when BD[3] = 1 (R106). -/
def expectAfterFlags (s : State) : State :=
  if bdHasContentSize s.work.flgBd then expect .csize s else expectDictOrHc s

/-! ## Block dispatch (43_block_reader.md R160 to R163) -/

/-- The block word's registers (R151, R152). -/
def latchBlockWord (raw : Bool) (len : Word31) (s : State) : State :=
  onWork (fun w => { w with blkWord := blockWordOf raw len, blkRaw := raw, blkLen := len }) s

/-- Step 9 of R150: the produced bytes join the history and become the pending window, back to AwaitingBlock (R162,
R163). -/
def appendHistory (out : List Byte) (s : State) : State :=
  { s with
    hist := some (s.hist.getD [] ++ out)
    pending := out.length
    st := .awaitingBlock
    work := { s.work with produced := out.length } }

/-- After step 9 the read loop goes on: a block that produced nothing leads to the next block word, any other to the drain
(44_drain_and_host.md R196, R197). -/
def afterDispatch (out : List Byte) (s : State) : State := loopTop (appendHistory out s)

/-- `INJECT()` (R160): the payload joins the history. -/
def inject (payload : List Byte) (s : State) : State := afterDispatch payload (setSt .haveRawBlock s)

/-- `DECODE()` (R161): the codec's answer joins the history, or CODEC_ERROR with st left at HaveCompressedBlock. -/
def decodeBlock (d : FrameDescriptor) (payload : List Byte) (s : State) : State :=
  match Config.codecDecode d (s.hist.getD []) payload with
  | .err f => raise (.codecError (.fault f)) (setSt .haveCompressedBlock s)
  | .ok out =>
    if d.maxBlockSize < out.length then raise (.codecError .outputTooLarge) (setSt .haveCompressedBlock s)
    else afterDispatch out (setSt .haveCompressedBlock s)

/-- Steps 7 and 8 of R150 on a payload. -/
def dispatchPayload (d : FrameDescriptor) (payload : List Byte) (s : State) : State :=
  if s.work.blkRaw then inject payload s else decodeBlock d payload s

/-- Dispatch of the block in the payload buffer. The payload must have been written and the READ's window must lie in its
destination; log 10, log 15. -/
def dispatch (d : FrameDescriptor) (b : Buffer) (s : State) : Host.Outcome State Fault Refusal :=
  match Buffer.readBytes b 0 s.work.blkLen.toNat with
  | none => .fault .unwrittenByte
  | some payload =>
    if s.dst.size < s.work.dOff + s.work.remaining then .fault .outsideBuffer
    else .next (dispatchPayload d payload s)

/-- After the payload: the block checksum when the frame has one (R159), else dispatch. -/
def afterPayload (s : State) : Host.Outcome State Fault Refusal :=
  match s.desc, s.blk with
  | some d, some b => if d.blockChecksumEnabled then .next (expect .blockChecksum s) else dispatch d b s
  | _, _ => .refused .outOfPosition

/-- A data block from its word on (R150, steps 1 to 9): the size bound before any payload byte (R157), the payload (R158),
then checksum or dispatch. -/
def dataBlock (raw : Bool) (len : Word31) (s : State) : Host.Outcome State Fault Refusal :=
  match s.desc, s.blk with
  | some d, some b =>
    if d.maxBlockSize < len.toNat then
      .next (raise (.blockTooLarge len.toNat d.maxBlockSize) (latchBlockWord raw len s))
    else if b.size < len.toNat then .fault .outsideBuffer
    else
      match readPayload len.toNat (latchBlockWord raw len s) with
      | .short got s2 => .next (raise (.truncatedStream .payload got len.toNat) s2)
      | .complete s2 => afterPayload s2
  | _, _ => .refused .outOfPosition

/-- The comparison of R159, made only when the option is on; then dispatch. -/
def verifyThenDispatch (v : Word32) (d : FrameDescriptor) (payload : List Byte) (s : State) : State :=
  if s.verifyBlock ∧ v ≠ Config.hash32 payload then raise (.blockChecksumMismatch (Config.hash32 payload) v) s
  else dispatchPayload d payload s

/-- `BLOCK_CHECKSUM()` after its four bytes (R159): the checksum covers the payload as stored. -/
def checkBlockChecksum (v : Word32) (s : State) : Host.Outcome State Fault Refusal :=
  match s.desc, s.blk with
  | some d, some b =>
    match Buffer.readBytes b 0 s.work.blkLen.toNat with
    | none => .fault .unwrittenByte
    | some payload =>
      if s.dst.size < s.work.dOff + s.work.remaining then .fault .outsideBuffer
      else .next (verifyThenDispatch v d payload (onWork (fun w => { w with bcsReg := v }) s))
  | _, _ => .refused .outOfPosition

/-- The terminator's tail: TEARDOWN, then the loop goes on with the next frame (R155, 44_drain_and_host.md R195). -/
def endFrame (s : State) : State := loopTop (teardown s)

/-! ## Guards -/

/-- A wire record runs only at a position the grammar gives it (30_encoding.md R82); log 7. -/
def atPosition (p : Position) (f : State → Host.Outcome State Fault Refusal) (s : State) :
    Host.Outcome State Fault Refusal :=
  if s.phase = .reading p then f s else .refused .outOfPosition

/-- A host command: none while another is in progress (70_reset_and_hazards.md R271; log 6), then the mode checks of
44_drain_and_host.md R190, R204, R205. -/
def command (f : State → Host.Outcome State Fault Refusal) (s : State) : Host.Outcome State Fault Refusal :=
  if s.phase ≠ .idle then .refused .commandOverlap
  else
    match s.mode with
    | .closed => .next (raise .closed s)
    | .failed => .next (raise (.instanceFailed s.err) s)
    | .opened => f s

/-- A command code without a capability (R203): refused with its code, nothing changed. -/
def unsupported (code : BitVec 3) (s : State) : Host.Outcome State Fault Refusal :=
  command (fun s => .next (raise (.invalidOperation code) s)) s

/-- What CLOSE leaves (R202). The frame state follows the descriptor: 10_state.md R21 has AwaitingFrame exactly when no frame
is active, between any two commands, and R202 does not list `st`. DEDUCED (log 13). -/
def closeBlock (s : State) : State :=
  { s with
    srcClosed := true, st := .awaitingFrame, desc := none, blk := none, hist := none, pending := 0, mode := .closed }

end Sys2Proof.Machine
end

