-- ==== Sys2Proof/Machine/Block.lean ====
section
/-! DEFINITION. The records of a block and of the frame's trailer (43_block_reader.md). Each meaning runs after its
record's fixed-width bytes have been consumed by the fetch; a data block then consumes its own payload. -/

namespace Sys2Proof.Machine

/-- After the terminator word (R153): the content checksum when the frame has one (R154), else teardown (R155). -/
def terminate (d : FrameDescriptor) (s : State) : State :=
  if d.contentChecksumEnabled then expect .contentChecksum s else endFrame s

/-- BLOCK_END (R153): FrameTerminated, then the trailer or the teardown. -/
def execBlockEnd (s : State) : Host.Outcome State Fault Refusal :=
  atPosition .blockWord
    (fun s =>
      match s.desc with
      | none => .refused .outOfPosition
      | some d => .next (terminate d (setSt .frameTerminated (latchBlockWord false 0#31 s)))) s

/-- BLOCK_RAW_EMPTY (R156): a raw block of length 0. -/
def execBlockRawEmpty (s : State) : Host.Outcome State Fault Refusal :=
  atPosition .blockWord (dataBlock true 0#31) s

/-- BLOCK_RAW (R157, R158, R160, R162, R163, R166). -/
def execBlockRaw (len : Word31) (s : State) : Host.Outcome State Fault Refusal :=
  atPosition .blockWord (dataBlock true len) s

/-- BLOCK_CMP (R157, R158, R161 to R164). -/
def execBlockCmp (len : Word31) (s : State) : Host.Outcome State Fault Refusal :=
  atPosition .blockWord (dataBlock false len) s

/-- BLOCK_CHECKSUM (R159). -/
def execBlockChecksum (value : Word32) (s : State) : Host.Outcome State Fault Refusal :=
  atPosition .blockChecksum (checkBlockChecksum value) s

/-- The comparison of R154, made only when the option is on; then teardown. -/
def trailerCheck (value : Word32) (s : State) : State :=
  if s.verifyContent ∧ value ≠ Config.hash32 (s.hist.getD []) then
    raise (.contentChecksumMismatch (Config.hash32 (s.hist.getD [])) value) s
  else endFrame s

/-- CONTENT_CHECKSUM (R154, R155). -/
def execContentChecksum (value : Word32) (s : State) : Host.Outcome State Fault Refusal :=
  atPosition .contentChecksum
    (fun s => .next (trailerCheck value (onWork (fun w => { w with ccsReg := value }) s))) s

end Sys2Proof.Machine
end

