-- ==== Sys2Proof/Machine/Header.lean ====
section
/-! DEFINITION. The records of the frame header (41_header_parser.md). Each meaning runs after its record's bytes have
been consumed by the fetch (Sys2Proof/Machine/Loop.lean), at the record's own position. -/

namespace Sys2Proof.Machine

/-- MAGIC (R101 to R103): the check passes, the scratch is reset, FLG_BD follows. -/
def execMagic (s : State) : Host.Outcome State Fault Refusal :=
  atPosition .magic
    (fun s => .next (expect .flgBd (read0 (onWork (fun w => { w with magic := magicConstant }) s)))) s

/-- BAD_MAGIC (R102): malformed-frame with the value read. -/
def execBadMagic (value : Word32) (s : State) : Host.Outcome State Fault Refusal :=
  atPosition .magic
    (fun s => .next (raise (.malformedFrame value) (onWork (fun w => { w with magic := value }) s))) s

/-- END_OF_STREAM (R101, 44_drain_and_host.md R194): NO_FRAME, and READ returns what it has delivered. -/
def execEndOfStream (s : State) : Host.Outcome State Fault Refusal :=
  atPosition .magic (fun s => .next (returnRead [] s)) s

/-- FLG_BD (R104, R105). -/
def execFlgBd (value : Word16) (s : State) : Host.Outcome State Fault Refusal :=
  atPosition .flgBd (fun s => .next (expectAfterFlags (onWork (fun w => { w with flgBd := value }) s))) s

/-- CSIZE (R106): the value is kept in a working register that nothing reads. -/
def execCsize (value : Word64) (s : State) : Host.Outcome State Fault Refusal :=
  atPosition .csize (fun s => .next (expectDictOrHc (onWork (fun w => { w with csize := value }) s))) s

/-- DICTID (R107). -/
def execDictId (value : Word32) (s : State) : Host.Outcome State Fault Refusal :=
  atPosition .dictId (fun s => .next (expectHc (onWork (fun w => { w with dictReg := value }) s))) s

/-- The check of R109 and the commit of R111, after which the loop goes on to step 2. -/
def headerCheck (value : Byte) (s : State) : State :=
  if value ≠ s.work.hcCalc then raise (.headerChecksumMismatch s.work.hcCalc value) s
  else loopStep2 (startFrame (descriptorOf s.work.flgBd s.work.dictReg) s)

/-- HC (R109 to R111). -/
def execHc (value : Byte) (s : State) : Host.Outcome State Fault Refusal :=
  atPosition .hc (fun s => .next (headerCheck value (onWork (fun w => { w with hcRead := value }) s))) s

end Sys2Proof.Machine
end

