-- ==== Sys2Proof/Machine/Loop.lean ====
section
/-! DEFINITION. The micro-steps of a READ (00_scope.md R5): fetch one record at the position the grammar gives
(30_encoding.md R82), run it, and repeat until the READ has ended. -/

namespace Sys2Proof.Machine

/-- What a fetch ends with: an instruction with the state after its bytes were consumed, or a truncation (R131, R132). -/
inductive Fetched where
  | instr (i : Instr) (s : State)
  | truncated (p : Position) (got : Nat) (s : State)

/-- The fetch at a position: the bytes through the primitive reader, the instruction through the decoder. -/
def fetchAt (p : Position) (s : State) : Fetched :=
  match readField p s with
  | .short got s1 => .truncated p got s1
  | .noData s1 => .instr .endOfStream s1
  | .bytes bs s1 =>
    match decodeAt p bs with
    | .ok (i, _) => .instr i s1
    | .error _ => .truncated p bs.length s1

/-- A fetched truncation: truncated-stream with the field, the bytes obtained and the bytes needed (R131). -/
def truncate (p : Position) (got : Nat) (s : State) : State :=
  raise (.truncatedStream (.fixed p) got p.width) s

/-- The meaning of a record inside a READ. A host command cannot be met here: it would overlap the READ
(70_reset_and_hazards.md R271; log 6). -/
def runRecord (i : Instr) (s : State) : Host.Outcome State Fault Refusal :=
  match i with
  | .magic => execMagic s
  | .badMagic v => execBadMagic v s
  | .endOfStream => execEndOfStream s
  | .flgBd v => execFlgBd v s
  | .csize v => execCsize v s
  | .dictId v => execDictId v s
  | .hc v => execHc v s
  | .blockEnd => execBlockEnd s
  | .blockRawEmpty => execBlockRawEmpty s
  | .blockRaw n => execBlockRaw n s
  | .blockCmp n => execBlockCmp n s
  | .blockChecksum v => execBlockChecksum v s
  | .contentChecksum v => execContentChecksum v s
  | .read _ _ _ => .refused .commandOverlap
  | .readAsync _ _ _ _ => .refused .commandOverlap
  | .close => .refused .commandOverlap
  | .seek => .refused .commandOverlap
  | .write => .refused .commandOverlap
  | .setLength => .refused .commandOverlap
  | .unassigned6 => .refused .commandOverlap
  | .unassigned7 => .refused .commandOverlap

/-- One micro-step at a position. -/
def recordStep (p : Position) (s : State) : Host.Outcome State Fault Refusal :=
  match fetchAt p s with
  | .truncated p got s1 => .next (truncate p got s1)
  | .instr i s1 => runRecord i s1

/-- Micro-steps until the READ has ended, on fuel (44_drain_and_host.md R207; log 16). -/
def runRecords : Nat → State → Host.Outcome State Fault Refusal
  | fuel, s =>
    match s.phase with
    | .idle => .next s
    | .reading p =>
      match fuel with
      | 0 => .fault .readDidNotEnd
      | fuel + 1 =>
        match recordStep p s with
        | .next s1 => runRecords fuel s1
        | .fault f => .fault f
        | .refused r => .refused r

/-- Enough fuel: every micro-step that does not end the READ consumes at least one byte. -/
def readFuel (s : State) : Nat := s.input.length - s.pos + 1

end Sys2Proof.Machine
end

