-- ==== Sys2Proof/Machine/Commands.lean ====
section
/-! DEFINITION. The host commands (44_drain_and_host.md), each one atomic step. -/

namespace Sys2Proof.Machine

/-- The first line of READ's pseudocode after the argument check (R192): the counters, and the destination this READ
writes to. -/
def beginRead (dst : Buffer) (off : Nat) (maxLength : Int) (s : State) : State :=
  { s with
    dst := dst
    work := { s.work with remaining := maxLength.toNat, delivered := 0, dOff := off } }

/-- A READ about to drain more than the history holds, which R200 excludes. Log 15. -/
def drainsTooMuch (maxLength : Int) (s : State) : Bool :=
  decide (0 < maxLength) && s.desc.isSome && decide ((s.hist.getD []).length < s.pending)

/-- READ in mode OPEN (R191, R192): the argument check, then the loop. -/
def readBody (dst : Buffer) (off : Nat) (maxLength : Int) (s : State) : Host.Outcome State Fault Refusal :=
  if badReadArguments dst off maxLength then .next (raise (.invalidArgument off maxLength) s)
  else if drainsTooMuch maxLength s then .fault .drainOutsideHistory
  else runRecords (readFuel s) (loopTop (beginRead dst off maxLength s))

/-- READ (R190 to R200). -/
def execRead (dst : Buffer) (off : Nat) (maxLength : Int) (s : State) : Host.Outcome State Fault Refusal :=
  command (readBody dst off maxLength) s

/-- One cancellation draw: the free value Config.cancelDraw at the number of draws taken before (R201; log 4). -/
def takeDraw (s : State) : Bool × State := (Config.cancelDraw s.draws, { s with draws := s.draws + 1 })

/-- READ_ASYNC in mode OPEN (R201): with cancel = 1, the draw decides between CANCELLED and READ, before any check or
consumption; with cancel = 0, READ. -/
def readAsyncBody (dst : Buffer) (off : Nat) (maxLength : Int) (cancel : Bool) (s : State) :
    Host.Outcome State Fault Refusal :=
  if cancel then
    if (takeDraw s).1 then .next (raise .cancelled (takeDraw s).2) else readBody dst off maxLength (takeDraw s).2
  else readBody dst off maxLength s

/-- READ_ASYNC (R201). -/
def execReadAsync (dst : Buffer) (off : Nat) (maxLength : Int) (cancel : Bool) (s : State) :
    Host.Outcome State Fault Refusal :=
  command (readAsyncBody dst off maxLength cancel) s

/-- CLOSE (R202, R205): allowed in every mode, and without effect in mode CLOSED. -/
def execClose (s : State) : Host.Outcome State Fault Refusal :=
  if s.phase ≠ .idle then .refused .commandOverlap
  else
    match s.mode with
    | .closed => .next (finish .done s)
    | .failed => .next (finish .done (closeBlock s))
    | .opened => .next (finish .done (closeBlock s))

/-- SEEK (R203). -/
def execSeek (s : State) : Host.Outcome State Fault Refusal := unsupported 3#3 s

/-- WRITE (R203). -/
def execWrite (s : State) : Host.Outcome State Fault Refusal := unsupported 4#3 s

/-- SET_LENGTH (R203). -/
def execSetLength (s : State) : Host.Outcome State Fault Refusal := unsupported 5#3 s

/-- Command code 6 (R203). -/
def execUnassigned6 (s : State) : Host.Outcome State Fault Refusal := unsupported 6#3 s

/-- Command code 7 (R203). -/
def execUnassigned7 (s : State) : Host.Outcome State Fault Refusal := unsupported 7#3 s

end Sys2Proof.Machine
end

