-- ==== Sys2Proof/Machine/Dispatch.lean ====
section
/-! DEFINITION. One arm per constructor of Instr, one direct call of its meaning each. -/

namespace Sys2Proof.Machine

def exec (i : Instr) (s : State) : Host.Outcome State Fault Refusal :=
  match i with
  | .magic => Sys2Proof.Machine.execMagic s
  | .badMagic value => Sys2Proof.Machine.execBadMagic value s
  | .endOfStream => Sys2Proof.Machine.execEndOfStream s
  | .flgBd value => Sys2Proof.Machine.execFlgBd value s
  | .csize value => Sys2Proof.Machine.execCsize value s
  | .dictId value => Sys2Proof.Machine.execDictId value s
  | .hc value => Sys2Proof.Machine.execHc value s
  | .blockEnd => Sys2Proof.Machine.execBlockEnd s
  | .blockRawEmpty => Sys2Proof.Machine.execBlockRawEmpty s
  | .blockRaw len => Sys2Proof.Machine.execBlockRaw len s
  | .blockCmp len => Sys2Proof.Machine.execBlockCmp len s
  | .blockChecksum value => Sys2Proof.Machine.execBlockChecksum value s
  | .contentChecksum value => Sys2Proof.Machine.execContentChecksum value s
  | .read dst off maxLength => Sys2Proof.Machine.execRead dst off maxLength s
  | .readAsync dst off maxLength cancel => Sys2Proof.Machine.execReadAsync dst off maxLength cancel s
  | .close => Sys2Proof.Machine.execClose s
  | .seek => Sys2Proof.Machine.execSeek s
  | .write => Sys2Proof.Machine.execWrite s
  | .setLength => Sys2Proof.Machine.execSetLength s
  | .unassigned6 => Sys2Proof.Machine.execUnassigned6 s
  | .unassigned7 => Sys2Proof.Machine.execUnassigned7 s

end Sys2Proof.Machine
end

