-- ==== Sys2Proof/Machine/Placement.lean ====
section
/-! DEFINITION. How an instruction is placed so that the very next step runs it. A command is put at the head of the
command port. A wire record has a meaning only inside a READ, so a READ in progress is placed with it: one byte requested,
a one-byte destination, and, for a record of a block, an active frame. Log 24. -/

namespace Sys2Proof.Machine

/-- The scratch cursor at the start of a record (10_state.md R29, 42_primitive_reader.md R134, R137). DICTID and HC can
start at more than one value; this is the one without optional fields. -/
def startCursor (p : Position) : Nat :=
  match p with
  | .magic => 0
  | .flgBd => 0
  | .csize => 2
  | .dictId => 2
  | .hc => 2
  | .blockWord => 0
  | .blockChecksum => 4
  | .contentChecksum => 4

/-- A READ in progress at position p. -/
def placeRead (p : Position) (s : State) : State :=
  { s with
    mode := .opened, srcClosed := false, phase := .reading p, scur := startCursor p, pending := 0,
    dst := Buffer.fresh 1, work := { s.work with remaining := 1, delivered := 0, dOff := 0 } }

/-- An active frame with nothing pending: the one that is active, or a frame of FLG_BD 0. -/
def placeFrame (s : State) : State :=
  match s.desc, s.blk, s.hist with
  | some _, some _, some _ => { s with pending := 0, st := .awaitingBlock }
  | _, _, _ => startFrame (descriptorOf 0#16 0#32) s

/-- The frame state that goes with a position (10_state.md R26). -/
def placeContext (p : Position) (s : State) : State :=
  match p with
  | .magic => teardown s
  | .flgBd => teardown s
  | .csize => teardown s
  | .dictId => teardown s
  | .hc => teardown s
  | .blockWord => placeFrame s
  | .blockChecksum => { placeFrame s with work := { s.work with blkLen := 0#31 } }
  | .contentChecksum => { placeFrame s with st := .frameTerminated }

/-- The payload that goes with a record's bytes: zeros, as many as a data block that fits its frame needs. -/
def placePayload (p : Position) (bytes : List Byte) (s : State) : List Byte :=
  match decodeAt p bytes with
  | .ok (.blockRaw n, _) => if n.toNat ≤ (s.desc.map (·.maxBlockSize)).getD 0 then List.replicate n.toNat 0#8 else []
  | .ok (.blockCmp n, _) => if n.toNat ≤ (s.desc.map (·.maxBlockSize)).getD 0 then List.replicate n.toNat 0#8 else []
  | _ => []

/-- Bytes stored in the input where the next byte is read. No bytes are the end of the input. -/
def placeInput (bytes : List Byte) (s : State) : State :=
  let before := (s.input ++ List.replicate (s.pos - s.input.length) 0#8).take s.pos
  match bytes with
  | [] => { s with input := before }
  | b :: bs => { s with input := before ++ (b :: bs) ++ s.input.drop (s.pos + (b :: bs).length) }

/-- An encoded instruction placed where step fetches next. -/
def placeEncoding (e : Encoding) (s : State) : State :=
  match e with
  | .port c => { s with phase := .idle, cmds := c :: s.cmds }
  | .wire p bytes =>
    let s1 := placeRead p (placeContext p s)
    placeInput (bytes ++ placePayload p bytes s1) s1

end Sys2Proof.Machine
end

