-- ==== Sys2Proof/Machine/Step.lean ====
section
/-! DEFINITION. One step. Between commands it takes the next command from the port and runs it whole (00_scope.md R5,
44_drain_and_host.md R190); inside a READ it fetches and runs one record, the same micro-step READ itself repeats. -/

namespace Sys2Proof.Machine

/-- One step of the machine; log 5 and, for the empty port, log 14. -/
def step (s : State) : Host.Outcome State Fault Refusal :=
  match s.phase with
  | .idle =>
    match s.cmds with
    | [] => .next s
    | c :: rest => exec (decodeCommand c) { s with cmds := rest }
  | .reading p =>
    match fetchAt p s with
    | .truncated p got s1 => .next (truncate p got s1)
    | .instr i s1 => exec i s1

/-- s with the instruction of a table word placed where step fetches next; log 12, log 24. -/
def State.withFetchWord (s : State) (nbits w : Nat) : State :=
  match tableEncoding nbits w with
  | none => s
  | some e => placeEncoding e s

end Sys2Proof.Machine
end

