-- ==== Sys2Proof/Safety.lean ====
section
/-! DEFINITION. What a safe state is: the invariant of the machine, in the terms the statements use. Each clause is a
sentence of the spec about every state between two commands or between two micro-steps. -/

namespace Sys2Proof.Machine

/-- The block sizes a descriptor can hold (10_state.md R24). -/
abbrev LegalBlockSize (n : Nat) : Prop := n = 65536 ∨ n = 262144 ∨ n = 1048576 ∨ n = 4194304

/-- `desc`, `blk` and `hist` are none together; the payload buffer has `maxBlockSize` bytes and keeps its canonical form;
the pending bytes fit the block size and lie in the history (10_state.md R21, R30, R31, 44_drain_and_host.md R200). -/
def FrameOk (s : State) : Prop :=
  match s.desc, s.blk, s.hist with
  | none, none, none => s.pending = 0
  | some d, some b, some h =>
    LegalBlockSize d.maxBlockSize ∧ b.size = d.maxBlockSize ∧ Buffer.wf b ∧ s.pending ≤ d.maxBlockSize ∧
      s.pending ≤ h.length
  | _, _, _ => False

/-- The codes a fatal error leaves in `err` (60_exceptions.md R230, R231). -/
abbrev FatalCode (c : BitVec 4) : Prop :=
  c = 1#4 ∨ c = 2#4 ∨ c = 3#4 ∨ c = 5#4 ∨ c = 6#4 ∨ c = 11#4 ∨ c = 12#4

/-- What goes with each mode: the source is closed with the block, a failed block has a fatal code, a closed block has no
frame (60_exceptions.md R231, 44_drain_and_host.md R202). -/
def ModeOk (s : State) : Prop :=
  match s.mode with
  | .opened => s.srcClosed = false
  | .failed => s.srcClosed = false ∧ FatalCode s.err
  | .closed => s.srcClosed = true ∧ s.desc = none

/-- The frame state that goes with a phase and a descriptor (10_state.md R21, R26, 43_block_reader.md R153). -/
def frameStateOf (ph : Phase) (desc : Option FrameDescriptor) : FrameState :=
  match ph, desc with
  | .reading .contentChecksum, _ => .frameTerminated
  | _, none => .awaitingFrame
  | _, some _ => .awaitingBlock

/-- `st` is AwaitingFrame exactly when no frame is active, in every mode (10_state.md R21). Its other value is AwaitingBlock
except in a failed block, which keeps the state it failed in (43_block_reader.md R163, 60_exceptions.md R231, R232; log 13). -/
def StOk (s : State) : Prop :=
  (s.st = .awaitingFrame ↔ s.desc = none) ∧ (s.mode ≠ .failed → s.st = frameStateOf s.phase s.desc)

/-- What holds before the record of each position is read (30_encoding.md R82; the cursor: 42_primitive_reader.md R134,
R137; the checksum: 41_header_parser.md R108). -/
def PositionOk (p : Position) (s : State) : Prop :=
  match p with
  | .magic => s.desc = none ∧ s.scur = 0
  | .flgBd => s.desc = none ∧ s.scur = 0
  | .csize => s.desc = none ∧ s.scur = 2
  | .dictId => s.desc = none ∧ (s.scur = 2 ∨ s.scur = 10)
  | .hc =>
    s.desc = none ∧ (s.scur = 2 ∨ s.scur = 6 ∨ s.scur = 10 ∨ s.scur = 14) ∧
      s.work.hcCalc = headerChecksum (scratchBytes s)
  | .blockWord => s.desc ≠ none ∧ s.pending = 0 ∧ s.scur = 0
  | .blockChecksum =>
    s.pending = 0 ∧ s.scur = 4 ∧
      ∃ d b payload, s.desc = some d ∧ s.blk = some b ∧ d.blockChecksumEnabled = true ∧
        s.work.blkLen.toNat ≤ d.maxBlockSize ∧ Buffer.readBytes b 0 s.work.blkLen.toNat = some payload
  | .contentChecksum =>
    s.pending = 0 ∧ s.scur = 4 ∧ ∃ d, s.desc = some d ∧ d.contentChecksumEnabled = true

/-- Inside a READ: the block is open, bytes are still wanted and none were delivered, the window lies in the destination
(44_drain_and_host.md R191, R192), and the position's own condition holds. -/
def PhaseOk (s : State) : Prop :=
  match s.phase with
  | .idle => True
  | .reading p =>
    s.mode = .opened ∧ 0 < s.work.remaining ∧ s.work.delivered = 0 ∧
      s.work.dOff + s.work.remaining ≤ s.dst.size ∧ PositionOk p s

/-- The invariant of the machine. -/
structure StateInv (s : State) : Prop where
  /-- The position never passes the end of the input (20_memory.md R50, R60). -/
  posLe : s.pos ≤ s.input.length
  /-- Scratch16 never overflows (42_primitive_reader.md R134). -/
  scurLe : s.scur ≤ 15
  frame : FrameOk s
  modeOk : ModeOk s
  stOk : StOk s
  phaseOk : PhaseOk s
  /-- The destination and the destinations of the waiting commands keep their canonical form. -/
  dstWf : Buffer.wf s.dst
  cmdsWf : ∀ c ∈ s.cmds, Buffer.wf c.dst

/-- Bytes consumed from the input into the scratch, one `SrcRead` and one store each (42_primitive_reader.md R130, R131). -/
def consumed : List Byte → State → State
  | [], s => s
  | b :: bs, s => consumed bs (pushScr b (advance s))

/-- Payload bytes consumed from the input into the payload buffer from offset `i` (42_primitive_reader.md R136). -/
def loaded : Nat → List Byte → State → State
  | _, [], s => s
  | i, b :: bs, s => loaded (i + 1) bs (storePayload i b (advance s))

/-- The bytes the source has still to deliver: `drop(pos, INPUT)` (10_state.md R23). -/
def unread (s : State) : List Byte := s.input.drop s.pos

/-- The buffer `new` is `old` with `bytes` written from offset `start`, said through reads of one byte. -/
def Overwritten (old new : Buffer) (start : Nat) (bytes : List Byte) : Prop :=
  new.size = old.size ∧
  (∀ a, a < start ∨ start + bytes.length ≤ a → Buffer.read new a = Buffer.read old a) ∧
  ∀ i (h : i < bytes.length), Buffer.read new (start + i) = some bytes[i]

/-- A step that answers a next state: no fault, no refusal. -/
def Answers (s : State) : Prop := ∃ t, step s = .next t

end Sys2Proof.Machine
end

