-- ==== Sys2Proof/Certificates/Slice0/Obligations.lean ====
section
/-! DEFINITION. The statements for the provers. Each docstring names the rule of spec/ it formalises, or says that it rests
on several, or on a choice of the model's own. -/

/-! ## The vocabulary of the statements -/

namespace Sys2Proof.Claims

open Sys2Proof.Machine

/-- s after the command in progress ended with result r. -/
def ended (r : CmdResult) (s : State) : State := { s with phase := .idle, results := s.results ++ [r] }

/-- s after a fatal error ended the command (60_exceptions.md R231). -/
def failedWith (code : BitVec 4) (e : BlockError) (s : State) : State :=
  { s with mode := .failed, err := code, phase := .idle, results := s.results ++ [.error code e] }

/-- t is s after a block produced `out`, with the history `h` before it: a block that produced nothing leads to the next
block word; any other becomes the pending window, and one copy of k bytes goes to the destination at `dOff`
(43_block_reader.md R162, 44_drain_and_host.md R196 to R198, R200). -/
def Produced (s : State) (h out : List Byte) (t : State) : Prop :=
  let k := min s.work.remaining out.length
  if out = [] then
    t = { s with hist := some h, pending := 0, st := .awaitingBlock, scur := 0, phase := .reading .blockWord,
                 work := { s.work with produced := 0 } }
  else
    ∃ dst', Overwritten s.dst dst' s.work.dOff (out.take k) ∧
      t = { s with hist := some (h ++ out), pending := out.length - k, st := .awaitingBlock, dst := dst',
                   phase := .idle, results := s.results ++ [.ok (s.work.delivered + k) (out.take k)],
                   work := { s.work with
                     produced := out.length, dOff := s.work.dOff + k, remaining := s.work.remaining - k,
                     delivered := s.work.delivered + k } }

/-- t is s after the codec was asked to decode `payload` (43_block_reader.md R161). -/
def Decoded (d : FrameDescriptor) (h payload : List Byte) (s t : State) : Prop :=
  match Config.codecDecode d h payload with
  | .err f => t = failedWith 6#4 (.codecError (.fault f)) { s with st := .haveCompressedBlock }
  | .ok out =>
    if d.maxBlockSize < out.length then
      t = failedWith 6#4 (.codecError .outputTooLarge) { s with st := .haveCompressedBlock }
    else Produced s h out t

/-- A READ in progress whose window lies in its destination (44_drain_and_host.md R191, R192), in a frame with descriptor
d, payload buffer b and history h. -/
structure InFrame (s : State) (d : FrameDescriptor) (b : Buffer) (h : List Byte) : Prop where
  desc : s.desc = some d
  blk : s.blk = some b
  hist : s.hist = some h
  wanted : 0 < s.work.remaining
  window : s.work.dOff + s.work.remaining ≤ s.dst.size
  capacity : d.maxBlockSize ≤ b.size

/-- s with the block word's registers (43_block_reader.md R151, R152). -/
def latched (raw : Bool) (len : Word31) (s : State) : State :=
  { s with work := { s.work with blkWord := BitVec.ofBool raw ++ len, blkRaw := raw, blkLen := len } }

/-- The header checksum of bytes: bits 15:8 of their hash (30_encoding.md R77). -/
def checksum (bs : List Byte) : Byte := (Config.hash32 bs).extractLsb' 8 8

/-- READ's arguments are in range (44_drain_and_host.md R191). -/
def GoodArguments (d : Buffer) (o : Nat) (m : Int) : Prop :=
  0 ≤ m ∧ m ≤ 2147483647 ∧ (o : Int) + m ≤ d.size

/-- The host commands other than CLOSE. -/
def RefusableCommand (i : Instr) : Prop :=
  (∃ d o m, i = .read d o m) ∨ (∃ d o m c, i = .readAsync d o m c) ∨ i = .seek ∨ i = .write ∨ i = .setLength ∨
    i = .unassigned6 ∨ i = .unassigned7

/-- The positions of the frame header (30_encoding.md R71). -/
abbrev HeaderPosition (p : Position) : Prop := p = .magic ∨ p = .flgBd ∨ p = .csize ∨ p = .dictId ∨ p = .hc

/-- The bits of FLG_BD that some rule reads: FLG[5], FLG[4], FLG[2], BD[6:4], BD[3], BD[0]. -/
abbrev decodedBits : Word16 := 0x7934#16

end Sys2Proof.Claims

open Sys2Proof Sys2Proof.Machine Sys2Proof.Claims

/-! ## Encoding -/

/-- Decoding an encoded well-formed instruction gives it back, for every row and every operand (30_encoding.md R71, R78,
R85). -/
def Obligations.DecodeEncodeAgree : Prop :=
  ∀ i : Instr, i.wf = true → decode (encode i) = .ok i

/-- What the decoder reads at a position is well formed and encodes to exactly the bytes read: no byte is dropped and no
word has two meanings at one position (30_encoding.md R81, R84). -/
def Obligations.EncodeDecodeAgree : Prop :=
  ∀ p bs i rest, decodeAt p bs = .ok (i, rest) →
    i.wf = true ∧ ∃ ws, encode i = .wire p ws ∧ bs = ws ++ rest ∧ (i ≠ .endOfStream → ws.length = p.width)

/-- The decoder rejects exactly the fields with too few bytes, and no bytes in a magic position are the end of the stream
(42_primitive_reader.md R131, R132). -/
def Obligations.ShortFieldsAreRejected : Prop :=
  ∀ p bs e, decodeAt p bs = .error e ↔
    bs.length < p.width ∧ ¬(p = .magic ∧ bs = []) ∧ e = .truncated p bs.length p.width

/-- R78: the word's bytes are little-endian, and the classes are decoded in their priority order. -/
def Obligations.BlockWordClasses : Prop :=
  ∀ w : Word32,
    decodeAt .blockWord [w.extractLsb' 0 8, w.extractLsb' 8 8, w.extractLsb' 16 8, w.extractLsb' 24 8] =
      .ok (if w = 0x00000000#32 then .blockEnd
           else if w = 0x80000000#32 then .blockRawEmpty
           else if w.getLsbD 31 = true then .blockRaw (w.setWidth 31)
           else .blockCmp (w.setWidth 31), [])

/-- Words written out from the opcode table, of each of its widths 0, 8, 16, 32 and 64, decode to their rows
(spec/opcode_table.json; the position of a bare word is the model's reading, log 12). -/
def Obligations.TableWordsDecode : Prop :=
  decodeTableWord 32 0x184D2204 = some .magic ∧ decodeTableWord 0 0 = some .endOfStream ∧
  decodeTableWord 16 0x4064 = some (.flgBd 0x4064#16) ∧ decodeTableWord 8 0xA7 = some (.hc 0xA7#8) ∧
  decodeTableWord 32 0 = some .blockEnd ∧ decodeTableWord 32 0x80000000 = some .blockRawEmpty ∧
  decodeTableWord 32 0x80000005 = some (.blockRaw 5#31) ∧ decodeTableWord 32 0x10 = some (.blockCmp 16#31) ∧
  decodeTableWord 64 5 = some (.csize 5#64) ∧
  decodeTableWord 8 2 = some .close ∧ decodeTableWord 8 3 = some .seek ∧ decodeTableWord 8 7 = some .unassigned7

/-! ## Operands and flags -/

/-- R110: the block-size table, with BD bit 7 no part of the code. -/
def Obligations.BlockSizeTable : Prop :=
  (∀ v d, (descriptorOf v d).maxBlockSize = blockSize (v.extractLsb' 12 3)) ∧
  blockSize 0#3 = 65536 ∧ blockSize 1#3 = 65536 ∧ blockSize 2#3 = 65536 ∧ blockSize 3#3 = 65536 ∧
  blockSize 4#3 = 65536 ∧ blockSize 5#3 = 262144 ∧ blockSize 6#3 = 1048576 ∧ blockSize 7#3 = 4194304

/-- R105: two flag fields that agree on the decoded bits select the same next field and the same descriptor, and neither
raises an error; the ignored bits are left in the FLG_BD register only. -/
def Obligations.IgnoredFlagBitsChangeNothing : Prop :=
  ∀ (v v' : Word16) (s : State), v &&& decodedBits = v' &&& decodedBits → s.phase = .reading .flgBd →
    (∀ d, descriptorOf v d = descriptorOf v' d) ∧
    ∃ t, exec (.flgBd v) s = .next t ∧
      exec (.flgBd v') s = .next { t with work := { t.work with flgBd := v' } } ∧
      t.mode = s.mode ∧ t.results = s.results

/-- The header checksum is bits 15:8 of the hash, by the formula `(h >> 8) & 0xFF` (41_header_parser.md R108,
30_encoding.md R77, 90_conflicts.md C1). -/
def Obligations.HeaderChecksumFormula : Prop :=
  ∀ bs, headerChecksum bs = checksum bs ∧ (headerChecksum bs).toNat = (Config.hash32 bs).toNat / 256 % 256

/-! ## The header's records: what each does, and that it completes -/

/-- MAGIC at its position: the scratch is reset and FLG_BD is read next (41_header_parser.md R101 to R103). -/
def Obligations.MagicStartsTheDescriptor : Prop :=
  ∀ s, s.phase = .reading .magic →
    exec .magic s =
      .next { s with scur := 0, phase := .reading .flgBd, work := { s.work with magic := 0x184D2204#32 } }

/-- R102: any other value in a magic position raises malformed-frame with that value, and the four bytes stay consumed. -/
def Obligations.BadMagicIsMalformedFrame : Prop :=
  (∀ s v, s.phase = .reading .magic →
    exec (.badMagic v) s =
      .next (failedWith 1#4 (.malformedFrame v) { s with work := { s.work with magic := v } })) ∧
  ∀ s (v : Word32) rest, s.phase = .reading .magic → v ≠ 0x184D2204#32 →
    unread s = [v.extractLsb' 0 8, v.extractLsb' 8 8, v.extractLsb' 16 8, v.extractLsb' 24 8] ++ rest →
    ∃ t, step s = .next t ∧ t.mode = .failed ∧ t.err = 1#4 ∧ t.pos = s.pos + 4 ∧
      t.results = s.results ++ [.error 1#4 (.malformedFrame v)]

/-- END_OF_STREAM: READ returns what it has delivered, with nothing consumed (41_header_parser.md R101,
44_drain_and_host.md R194). -/
def Obligations.EndOfStreamEndsTheRead : Prop :=
  (∀ s, s.phase = .reading .magic → exec .endOfStream s = .next (ended (.ok s.work.delivered []) s)) ∧
  ∀ s, s.phase = .reading .magic → unread s = [] → step s = .next (ended (.ok s.work.delivered []) s)

/-- FLG_BD: the flags go to their register; BD[3], then BD[0], choose the next field, and before HC the checksum of the
scratch is taken (41_header_parser.md R100, R104, R106 to R108). -/
def Obligations.FlagsChooseTheNextField : Prop :=
  ∀ s v, s.phase = .reading .flgBd →
    exec (.flgBd v) s =
      .next { s with
        phase := .reading (if v.getLsbD 11 then .csize else if v.getLsbD 8 then .dictId else .hc)
        work := { s.work with
          flgBd := v
          hcCalc := if v.getLsbD 11 || v.getLsbD 8 then s.work.hcCalc else checksum (scratchBytes s) } }

/-- CSIZE: consumed into a register and nothing else; BD[0] chooses the next field (41_header_parser.md R106, R107). -/
def Obligations.ContentSizeIsNotInterpreted : Prop :=
  ∀ s v, s.phase = .reading .csize →
    exec (.csize v) s =
      .next { s with
        phase := .reading (if s.work.flgBd.getLsbD 8 then .dictId else .hc)
        work := { s.work with
          csize := v, hcCalc := if s.work.flgBd.getLsbD 8 then s.work.hcCalc else checksum (scratchBytes s) } }

/-- DICTID: to its register, and the header checksum is read next (41_header_parser.md R107, R108). -/
def Obligations.DictionaryIdIsLatched : Prop :=
  ∀ s v, s.phase = .reading .dictId →
    exec (.dictId v) s =
      .next { s with
        phase := .reading .hc, work := { s.work with dictReg := v, hcCalc := checksum (scratchBytes s) } }

/-- HC with a matching byte: the descriptor is committed, the frame's buffer and history are new, nothing is pending, and
the first block word is read next (41_header_parser.md R109, R111, 10_state.md R24). -/
def Obligations.MatchingChecksumStartsTheFrame : Prop :=
  ∀ s v, s.phase = .reading .hc → v = s.work.hcCalc →
    exec (.hc v) s =
      .next { s with
        desc := some {
          contentChecksumEnabled := s.work.flgBd.getLsbD 2
          blockChainingEnabled := !s.work.flgBd.getLsbD 5
          blockChecksumEnabled := s.work.flgBd.getLsbD 4
          dictionaryId := if s.work.flgBd.getLsbD 8 then some s.work.dictReg else none
          maxBlockSize := blockSize (s.work.flgBd.extractLsb' 12 3) }
        blk := some { size := blockSize (s.work.flgBd.extractLsb' 12 3), cells := [] }
        hist := some [], pending := 0, st := .awaitingBlock, scur := 0, phase := .reading .blockWord
        work := { s.work with hcRead := v } }

/-- HC with another byte: header-checksum-mismatch with both bytes; no descriptor is created and `st` stays
(41_header_parser.md R109). -/
def Obligations.WrongChecksumFails : Prop :=
  ∀ s v, s.phase = .reading .hc → v ≠ s.work.hcCalc →
    exec (.hc v) s =
      .next (failedWith 2#4 (.headerChecksumMismatch s.work.hcCalc v) { s with work := { s.work with hcRead := v } })

/-- R112: where the stored checksum byte lets the header parse, every other byte in its place raises
header-checksum-mismatch. -/
def Obligations.ChangedChecksumNeverParses : Prop :=
  ∀ s t b rest b', s.phase = .reading .hc → s.desc = none → unread s = b :: rest → step s = .next t → t.desc ≠ none →
    b' ≠ b →
    ∃ t', step { s with input := s.input.set s.pos b' } = .next t' ∧ t'.desc = none ∧ t'.mode = .failed ∧
      t'.results = s.results ++ [.error 2#4 (.headerChecksumMismatch s.work.hcCalc b')]

/-- Nothing a header's record reads becomes visible before the commit: each one leaves the frame state, the descriptor, the
payload buffer, the history and the pending window as they were, and the mode and the error register too unless the READ
has failed (41_header_parser.md R100). -/
def Obligations.HeaderIsInvisibleUntilCommitted : Prop :=
  ∀ s t p, s.mode = .opened → s.phase = .reading p → HeaderPosition p → step s = .next t →
    (p = .hc → t.mode = .failed) →
    t.st = s.st ∧ t.desc = s.desc ∧ t.blk = s.blk ∧ t.hist = s.hist ∧ t.pending = s.pending ∧ t.dst = s.dst ∧
      (t.mode = s.mode ∧ t.err = s.err ∨ t.mode = .failed ∧ (t.err = 1#4 ∨ t.err = 2#4 ∨ t.err = 3#4))

/-! ## The records of a block -/

/-- BLOCK_END: FrameTerminated with a content checksum to come, or the frame is torn down and the loop looks for the next
one (43_block_reader.md R153 to R155, 44_drain_and_host.md R195). -/
def Obligations.TerminatorEndsTheFrame : Prop :=
  ∀ s d, s.phase = .reading .blockWord → s.desc = some d → 0 < s.work.remaining →
    exec .blockEnd s =
      .next (if d.contentChecksumEnabled then
          { latched false 0#31 s with st := .frameTerminated, phase := .reading .contentChecksum }
        else
          { latched false 0#31 s with
            desc := none, blk := none, hist := none, pending := 0, st := .awaitingFrame, scur := 0,
            phase := .reading .magic })

/-- CONTENT_CHECKSUM: accepted whatever its value with the option off, compared with the hash of the frame's bytes with it
on; accepted, it tears the frame down (43_block_reader.md R154, R155). -/
def Obligations.ContentChecksumEndsTheFrame : Prop :=
  ∀ s h v, s.phase = .reading .contentChecksum → s.hist = some h → 0 < s.work.remaining →
    exec (.contentChecksum v) s =
      .next (if s.verifyContent = true ∧ v ≠ Config.hash32 h then
          failedWith 12#4 (.contentChecksumMismatch (Config.hash32 h) v)
            { s with work := { s.work with ccsReg := v } }
        else
          { s with
            desc := none, blk := none, hist := none, pending := 0, st := .awaitingFrame, scur := 0,
            phase := .reading .magic, work := { s.work with ccsReg := v } })

/-- R156: the word 0x80000000 is an empty raw block: it produces nothing, and the frame stays active. -/
def Obligations.EmptyRawBlockProducesNothing : Prop :=
  ∀ s d b h, s.phase = .reading .blockWord → InFrame s d b h →
    ∃ t, exec .blockRawEmpty s = .next t ∧ t.desc = some d ∧
      if d.blockChecksumEnabled then t = { latched true 0#31 s with phase := .reading .blockChecksum }
      else Produced (latched true 0#31 s) h [] t

/-- BLOCK_RAW: the payload is consumed into the payload buffer; then the block checksum is read, or the payload is exactly
what the block produces (43_block_reader.md R158, R160, R162, R163, R166). -/
def Obligations.RawBlockProducesItsPayload : Prop :=
  ∀ s d b h len, s.phase = .reading .blockWord → InFrame s d b h → len.toNat ≤ d.maxBlockSize →
    len.toNat ≤ (unread s).length →
    ∃ t b', exec (.blockRaw len) s = .next t ∧ Overwritten b b' 0 ((unread s).take len.toNat) ∧
      let s' := { latched true len s with pos := s.pos + len.toNat, blk := some b' }
      if d.blockChecksumEnabled then t = { s' with phase := .reading .blockChecksum }
      else Produced s' h ((unread s).take len.toNat) t

/-- BLOCK_CMP: the payload is consumed into the payload buffer; then the block checksum is read, or the codec decodes the
payload (43_block_reader.md R158, R161 to R163). -/
def Obligations.CompressedBlockIsDecoded : Prop :=
  ∀ s d b h len, s.phase = .reading .blockWord → InFrame s d b h → len.toNat ≤ d.maxBlockSize →
    len.toNat ≤ (unread s).length →
    ∃ t b', exec (.blockCmp len) s = .next t ∧ Overwritten b b' 0 ((unread s).take len.toNat) ∧
      let s' := { latched false len s with pos := s.pos + len.toNat, blk := some b' }
      if d.blockChecksumEnabled then t = { s' with phase := .reading .blockChecksum }
      else Decoded d h ((unread s).take len.toNat) s' t

/-- R157: a data block longer than the frame's block size raises BLOCK_TOO_LARGE before any payload byte is consumed, raw
and compressed alike. -/
def Obligations.OversizedBlockIsRefused : Prop :=
  ∀ s d b h len, s.phase = .reading .blockWord → InFrame s d b h → d.maxBlockSize < len.toNat →
    exec (.blockRaw len) s =
      .next (failedWith 5#4 (.blockTooLarge len.toNat d.maxBlockSize) (latched true len s)) ∧
    exec (.blockCmp len) s =
      .next (failedWith 5#4 (.blockTooLarge len.toNat d.maxBlockSize) (latched false len s))

/-- BLOCK_CHECKSUM: accepted whatever its value with the option off, compared with the hash of the stored payload with it
on; accepted, the payload is injected or decoded (43_block_reader.md R159 to R163). -/
def Obligations.BlockChecksumThenDispatch : Prop :=
  ∀ s d b h v payload, s.phase = .reading .blockChecksum → InFrame s d b h →
    Buffer.readBytes b 0 s.work.blkLen.toNat = some payload →
    ∃ t, exec (.blockChecksum v) s = .next t ∧
      let s' := { s with work := { s.work with bcsReg := v } }
      if s.verifyBlock = true ∧ v ≠ Config.hash32 payload then
        t = failedWith 11#4 (.blockChecksumMismatch (Config.hash32 payload) v) s'
      else if s.work.blkRaw = true then Produced s' h payload t
      else Decoded d h payload s' t

/-- An input that ends inside a record, of the header or of a block, or inside a payload raises truncated-stream with the
field, the bytes obtained and the bytes needed; the input is used up, and nothing reaches the history, the pending window or
the destination. The bytes obtained stay where they were stored: a record's in the scratch after those it held, as far as it
has room, and a payload's in the payload buffer from offset 0, with the scratch as it was
(42_primitive_reader.md R131, R132, R136, 43_block_reader.md R165, 60_exceptions.md R232). That the counts of a cut magic start at
its first byte is the model's reading of R132, by its example: log 17, DEDUCED. -/
def Obligations.TruncationReachesNoHistory : Prop :=
  (∀ s p, s.phase = .reading p → s.pos ≤ s.input.length → (unread s).length < p.width →
    ¬(p = .magic ∧ unread s = []) →
    ∃ t, step s = .next t ∧ t.mode = .failed ∧ t.err = 3#4 ∧ t.pos = s.input.length ∧ t.hist = s.hist ∧
      t.pending = s.pending ∧ t.st = s.st ∧ t.desc = s.desc ∧ t.dst = s.dst ∧
      t.blk = s.blk ∧ t.scur = s.scur + (unread s).length ∧
      (s.scur + (unread s).length ≤ 16 → scratchBytes t = scratchBytes s ++ unread s) ∧
      t.results = s.results ++ [.error 3#4 (.truncatedStream (.fixed p) (unread s).length p.width)]) ∧
  ∀ s d b h len, s.phase = .reading .blockWord → InFrame s d b h → s.pos ≤ s.input.length →
    len.toNat ≤ d.maxBlockSize → (unread s).length < len.toNat →
    ∀ i, i = .blockRaw len ∨ i = .blockCmp len →
      ∃ t, exec i s = .next t ∧ t.mode = .failed ∧ t.err = 3#4 ∧ t.pos = s.input.length ∧ t.hist = s.hist ∧
        t.pending = s.pending ∧ t.st = s.st ∧ t.desc = s.desc ∧ t.dst = s.dst ∧
        t.scr = s.scr ∧ t.scur = s.scur ∧ (∃ b', t.blk = some b' ∧ Overwritten b b' 0 (unread s)) ∧
        t.results = s.results ++ [.error 3#4 (.truncatedStream .payload (unread s).length len.toNat)]

/-- The chaining flag and the dictionary ID change nothing in a raw block: not the bytes consumed, not the errors, not the
pending window (43_block_reader.md R164, for the blocks that do not reach the codec). -/
def Obligations.ChainingDoesNotFrameRawBlocks : Prop :=
  ∀ (s : State) (d : FrameDescriptor) chain dict len t, exec (.blockRaw len) { s with desc := some d } = .next t →
    exec (.blockRaw len) { s with desc := some { d with blockChainingEnabled := chain, dictionaryId := dict } } =
      .next { t with desc := some { d with blockChainingEnabled := chain, dictionaryId := dict } }

/-! ## The primitive reader -/

/-- An expected read of n bytes gives the next n bytes, consumed and stored in the scratch; or it ends with the
bytes that were left, all consumed (42_primitive_reader.md R131). -/
def Obligations.ReadExactContract : Prop :=
  ∀ n s, s.pos ≤ s.input.length → s.scur + n ≤ 16 →
    if n ≤ s.input.length - s.pos then
      ∃ t, readExact n s = .bytes ((s.input.drop s.pos).take n) t ∧
        scratchBytes t = scratchBytes s ++ (s.input.drop s.pos).take n ∧
        t = { s with pos := s.pos + n, scur := s.scur + n, scr := t.scr }
    else
      ∃ t, readExact n s = .short (s.input.length - s.pos) t ∧
        t = { s with pos := s.input.length, scur := s.scur + (s.input.length - s.pos), scr := t.scr }

/-- The optional read of the magic has a clean end at byte 0 and is an expected read otherwise (42_primitive_reader.md
R132). That it is the expected read of all 4 bytes, so that a cut magic's counts start at its first byte, is the model's
reading of R132 by its example (got 1, need 4): its pseudocode calls `readExact(n - 1)` after the first byte. Log 17,
DEDUCED. -/
def Obligations.TryReadExactContract : Prop :=
  ∀ s, (s.input.length ≤ s.pos → tryReadExact 4 s = .noData s) ∧
    (s.pos < s.input.length → tryReadExact 4 s = readExact 4 s)

/-- The payload read puts the next n bytes at offsets 0 to n-1 of the payload buffer and leaves the scratch alone; or
it ends with the bytes that were left, all consumed (42_primitive_reader.md R136). -/
def Obligations.PayloadReadContract : Prop :=
  ∀ n s b, s.blk = some b → s.pos ≤ s.input.length →
    ∃ b' m, m = min n (s.input.length - s.pos) ∧ Overwritten b b' 0 ((s.input.drop s.pos).take m) ∧
      readPayload n s =
        if n ≤ s.input.length - s.pos then PayloadOut.complete ({ s with pos := s.pos + n, blk := some b' } : State)
        else PayloadOut.short (s.input.length - s.pos) ({ s with pos := s.input.length, blk := some b' } : State)

/-! ## The host commands -/

/-- READ of length 0 returns 0, reads no input and changes no field of the block's persistent state: only the counters that
R192 sets before its loop, the destination and the list of results move (44_drain_and_host.md R192, R193; that the
destination and the results are fields is the model's log 22). -/
def Obligations.ZeroLengthReadReturnsZero : Prop :=
  ∀ s d o, s.phase = .idle → s.mode = .opened → o ≤ d.size →
    exec (.read d o 0) s =
      .next { s with
        dst := d, results := s.results ++ [.ok 0 []]
        work := { s.work with remaining := 0, delivered := 0, dOff := o } }

/-- R191: READ with an argument out of range raises INVALID_ARGUMENT and changes no state; it is not fatal. -/
def Obligations.BadArgumentsAreRefused : Prop :=
  ∀ s d o m, s.phase = .idle → s.mode = .opened → ¬GoodArguments d o m →
    exec (.read d o m) s = .next (ended (.error 7#4 (.invalidArgument o m)) s)

/-- While bytes are pending, READ delivers from them alone: the oldest undelivered bytes, at most as many as asked for and
as are pending, with no input consumed and no new block read (44_drain_and_host.md R197, R198, R200, 10_state.md R30). -/
def Obligations.ReadDrainsThePendingWindow : Prop :=
  ∀ s d o m fd h, s.phase = .idle → s.mode = .opened → GoodArguments d o m → 0 < m → s.desc = some fd →
    s.hist = some h → 0 < s.pending → s.pending ≤ h.length →
    let k := min m.toNat s.pending
    let bytes := (h.drop (h.length - s.pending)).take k
    ∃ d', Overwritten d d' o bytes ∧ bytes.length = k ∧
      exec (.read d o m) s =
        .next { s with
          dst := d', pending := s.pending - k, results := s.results ++ [.ok k bytes]
          work := { s.work with remaining := m.toNat - k, delivered := k, dOff := o + k } }

/-- Every READ and every READ_ASYNC ends, from every state that meets the invariant, with exactly one result
(44_drain_and_host.md R207). It rests on the source's duty of progress, which 70_reset_and_hazards.md R275 names and
93_implementation_defined.md K17 asks of such a claim as a premise: no state of this model breaks it, because its source is
a finite list of bytes that always answers (log 20, DEDUCED). -/
def Obligations.EveryReadEnds : Prop :=
  ∀ s d o m, StateInv s → s.phase = .idle → Buffer.wf d →
    (∃ t r, exec (.read d o m) s = .next t ∧ t.phase = .idle ∧ t.results = s.results ++ [r] ∧ StateInv t) ∧
    ∀ c, ∃ t r, exec (.readAsync d o m c) s = .next t ∧ t.phase = .idle ∧ t.results = s.results ++ [r] ∧ StateInv t

/-- What a READ that returns n has done: it wrote n bytes from `off`, and no others; n is at most the request and, when not
0, at most the block size of the current frame; the bytes are then the n bytes of the current frame's history that stand
just before those still pending; n is 0 exactly when nothing was asked for or the input ended at a frame boundary
(44_drain_and_host.md R199, R200; the decoded stream is the frames' histories in order, and that a READ takes the window from
its oldest byte is ReadDrainsThePendingWindow and `Produced`). -/
def Obligations.ReadReturnsWhatItWrote : Prop :=
  ∀ s d o m t (n : Nat) (bytes : List Byte), StateInv s → s.phase = .idle → s.mode = .opened →
    Buffer.wf d → exec (.read d o m) s = .next t → t.results = s.results ++ [.ok n bytes] →
    bytes.length = n ∧ (n : Int) ≤ m ∧ Overwritten d t.dst o bytes ∧
      (n = 0 ↔ m = 0 ∨ (t.desc = none ∧ t.pos = t.input.length)) ∧
      (0 < n → ∃ fd h, t.desc = some fd ∧ t.hist = some h ∧ n ≤ fd.maxBlockSize ∧ t.pending + n ≤ h.length ∧
        bytes = (h.drop (h.length - t.pending - n)).take n)

/-- A READ that ends with an error has written no byte of its destination (20_memory.md R64 item 4, 44_drain_and_host.md
R192). -/
def Obligations.FailedReadWritesNothing : Prop :=
  ∀ s d o m t c e, StateInv s → s.phase = .idle → Buffer.wf d → exec (.read d o m) s = .next t →
    t.results = s.results ++ [.error c e] → t.dst = d ∨ t.dst = s.dst

/-- READ_ASYNC without cancellation is READ; with cancellation, the draw decides between CANCELLED with no state
change and READ. The draw is a free value of the model and its counter the model's own field
(44_drain_and_host.md R201; log 4). -/
def Obligations.ReadAsyncIsReadOrCancelled : Prop :=
  (∀ s d o m, exec (.readAsync d o m false) s = exec (.read d o m) s) ∧
  ∀ s d o m, s.phase = .idle → s.mode = .opened →
    exec (.readAsync d o m true) s =
      if Config.cancelDraw s.draws then .next (ended (.error 10#4 .cancelled) { s with draws := s.draws + 1 })
      else exec (.read d o m) { s with draws := s.draws + 1 }

/-- CLOSE closes the source, discards the frame and sets CLOSED from OPEN and FAILED; in CLOSED it does nothing
(44_drain_and_host.md R202, R205). That `st` becomes AwaitingFrame with the frame gone is the model's reading of
10_state.md R21, since R202 does not list `st`: log 13, DEDUCED. -/
def Obligations.CloseDiscardsTheFrame : Prop :=
  ∀ s, s.phase = .idle →
    exec .close s =
      .next (ended .done
        (if s.mode = .closed then s
         else { s with
           srcClosed := true, st := .awaitingFrame, desc := none, blk := none, hist := none, pending := 0,
           mode := .closed }))

/-- R203: SEEK, WRITE, SET_LENGTH and the codes 6 and 7 raise INVALID_OPERATION with their code and change nothing. -/
def Obligations.UnsupportedCommandsAreRefused : Prop :=
  ∀ s, s.phase = .idle → s.mode = .opened →
    exec .seek s = .next (ended (.error 4#4 (.invalidOperation 3#3)) s) ∧
    exec .write s = .next (ended (.error 4#4 (.invalidOperation 4#3)) s) ∧
    exec .setLength s = .next (ended (.error 4#4 (.invalidOperation 5#3)) s) ∧
    exec .unassigned6 s = .next (ended (.error 4#4 (.invalidOperation 6#3)) s) ∧
    exec .unassigned7 s = .next (ended (.error 4#4 (.invalidOperation 7#3)) s)

/-- R204: while FAILED, every command but CLOSE raises INSTANCE_FAILED with the stored code and changes nothing. -/
def Obligations.FailedBlockRefusesCommands : Prop :=
  ∀ s i, s.phase = .idle → s.mode = .failed → RefusableCommand i →
    exec i s = .next (ended (.error 8#4 (.instanceFailed s.err)) s)

/-- R205: while CLOSED, CLOSE does nothing, and every other command raises CLOSED and changes nothing. -/
def Obligations.ClosedBlockRefusesCommands : Prop :=
  ∀ s, s.phase = .idle → s.mode = .closed →
    exec .close s = .next (ended .done s) ∧
    ∀ i, RefusableCommand i → exec i s = .next (ended (.error 9#4 .closed) s)

/-- Where the spec gives an instruction no behaviour the model stops by name: a command during another one, and a wire
record at no position of its own. The choice is the model's (70_reset_and_hazards.md R271, 30_encoding.md R82; log 6,
log 7). -/
def Obligations.OverlapAndMisplacementAreRefused : Prop :=
  (∀ s i p, s.phase = .reading p → (RefusableCommand i ∨ i = .close) → exec i s = .refused .commandOverlap) ∧
  ∀ s i p ws, encode i = .wire p ws → s.phase ≠ .reading p → exec i s = .refused .outOfPosition

/-! ## Errors -/

/-- The code of each error and whether it is fatal (60_exceptions.md R230). -/
def Obligations.ErrorTable : Prop :=
  (∀ v, (BlockError.malformedFrame v).code = 1#4 ∧ (BlockError.malformedFrame v).fatal = true) ∧
  (∀ a b, (BlockError.headerChecksumMismatch a b).code = 2#4 ∧
    (BlockError.headerChecksumMismatch a b).fatal = true) ∧
  (∀ f g n, (BlockError.truncatedStream f g n).code = 3#4 ∧ (BlockError.truncatedStream f g n).fatal = true) ∧
  (∀ c, (BlockError.invalidOperation c).code = 4#4 ∧ (BlockError.invalidOperation c).fatal = false) ∧
  (∀ a b, (BlockError.blockTooLarge a b).code = 5#4 ∧ (BlockError.blockTooLarge a b).fatal = true) ∧
  (∀ i, (BlockError.codecError i).code = 6#4 ∧ (BlockError.codecError i).fatal = true) ∧
  (∀ a b, (BlockError.invalidArgument a b).code = 7#4 ∧ (BlockError.invalidArgument a b).fatal = false) ∧
  (∀ c, (BlockError.instanceFailed c).code = 8#4 ∧ (BlockError.instanceFailed c).fatal = false) ∧
  (BlockError.closed.code = 9#4 ∧ BlockError.closed.fatal = false) ∧
  (BlockError.cancelled.code = 10#4 ∧ BlockError.cancelled.fatal = false) ∧
  (∀ a b, (BlockError.blockChecksumMismatch a b).code = 11#4 ∧
    (BlockError.blockChecksumMismatch a b).fatal = true) ∧
  ∀ a b, (BlockError.contentChecksumMismatch a b).code = 12#4 ∧ (BlockError.contentChecksumMismatch a b).fatal = true

/-- Raising an error ends the command with its code and info; a fatal one sets FAILED and the error register; every
state change made before stays (60_exceptions.md R231). -/
def Obligations.ErrorEntry : Prop :=
  ∀ e s, raise e s = if e.fatal = true then failedWith e.code e s else ended (.error e.code e) s

/-! ## The machine as a whole -/

/-- The reset values the spec gives (70_reset_and_hazards.md R260). -/
def Obligations.ResetValues : Prop :=
  let s := State.reset
  s.mode = .opened ∧ s.st = .awaitingFrame ∧ s.pos = 0 ∧ s.desc = none ∧ s.blk = none ∧ s.hist = none ∧
    s.pending = 0 ∧ s.scur = 0

/-- The state after construction over any input, with any options and any waiting commands with canonical destinations,
meets the invariant (70_reset_and_hazards.md R260, R263). -/
def Obligations.LaunchMeetsTheInvariant : Prop :=
  StateInv State.reset ∧
  ∀ input vb vc cmds, (∀ c ∈ cmds, Buffer.wf c.dst) → StateInv (State.launch input vb vc cmds)

/-- Every step from a state that meets the invariant gives one that meets it: the storage stays canonical, the scratch never
overflows, the frame's parts go together, the pending window stays in the history (10_state.md R21, R29 to R31,
42_primitive_reader.md R134). -/
def Obligations.StepKeepsTheInvariant : Prop :=
  ∀ s t, StateInv s → step s = .next t → StateInv t

/-- Between commands, in every mode, `desc`, `blk` and `hist` are none together, `st` is AwaitingFrame exactly when no frame is
active, and nothing is pending without a frame; while the block has not failed, `st` is AwaitingBlock exactly when one is
(10_state.md R21). A failed block keeps the state it failed in, as 43_block_reader.md R163 and 60_exceptions.md R231 and R232
say: log 13. -/
def Obligations.FrameActivityBetweenCommands : Prop :=
  ∀ s, StateInv s → s.phase = .idle →
    (s.desc = none ↔ s.blk = none) ∧ (s.desc = none ↔ s.hist = none) ∧ (s.st = .awaitingFrame ↔ s.desc = none) ∧
      (s.desc = none → s.pending = 0) ∧ (s.mode ≠ .failed → (s.st = .awaitingBlock ↔ s.desc ≠ none))

/-- From a state that meets the invariant, a step always answers a next state: no fault, no refusal, whatever the input, the
commands, the hash, the codec and the draws (44_drain_and_host.md R207). The source's duty of progress (70_reset_and_hazards.md
R275) is built into the model: log 20, DEDUCED. -/
def Obligations.StepAlwaysAnswers : Prop :=
  ∀ s, StateInv s → Answers s

/-- One host command is one atomic step: it starts and ends between commands, takes exactly the command at the head of the
port, and adds exactly one result (00_scope.md R5, 44_drain_and_host.md R190, R206). That it ends rests on the source's duty
of progress (70_reset_and_hazards.md R275), which the model builds in: log 20, DEDUCED. -/
def Obligations.CommandIsOneStep : Prop :=
  ∀ s c rest, StateInv s → s.phase = .idle → s.cmds = c :: rest →
    ∃ t r, step s = .next t ∧ t.phase = .idle ∧ t.cmds = rest ∧ t.results = s.results ++ [r]

/-- Between commands the step takes the next command from the port and runs it (44_drain_and_host.md R190). -/
def Obligations.StepRunsTheCommand : Prop :=
  ∀ s c rest, s.phase = .idle → s.cmds = c :: rest → step s = exec (decodeCommand c) { s with cmds := rest }

/-- Inside a READ the step runs the record the next bytes decode to, with its bytes consumed and stored in the scratch
(30_encoding.md R82, 42_primitive_reader.md R131, R132). -/
def Obligations.StepRunsTheDecodedRecord : Prop :=
  ∀ s p i rest, s.phase = .reading p → decodeAt p (unread s) = .ok (i, rest) →
    step s = exec i (consumed ((unread s).take p.width) s) ∧
    unread (consumed ((unread s).take p.width) s) = rest

/-- READ's one atomic step is the repetition of the machine's own micro-step from the state the read loop starts in
(00_scope.md R5, 44_drain_and_host.md R192). -/
def Obligations.ReadIsRepeatedMicroSteps : Prop :=
  ∀ s d o m t, s.phase = .idle → s.mode = .opened → GoodArguments d o m → exec (.read d o m) s = .next t →
    ∃ n, Host.Core.run Sys2Proof.core n (loopTop (beginRead d o m s)) = .next t

/-- No step changes the input or the options; the position never falls and never passes the end of the input (20_memory.md
R61, R67, 10_state.md R27, 70_reset_and_hazards.md R263). -/
def Obligations.InputIsConsumedInOrder : Prop :=
  ∀ s t, StateInv s → step s = .next t →
    t.input = s.input ∧ s.pos ≤ t.pos ∧ t.pos ≤ t.input.length ∧ t.verifyBlock = s.verifyBlock ∧
      t.verifyContent = s.verifyContent

/-- Inside a READ the descriptor is written at the header checksum only and cleared at a terminator or its trailer only
(10_state.md R25). -/
def Obligations.DescriptorChangesOnlyAtFrameEnds : Prop :=
  ∀ s t p, s.phase = .reading p → step s = .next t →
    t.desc = s.desc ∨ (p = .hc ∧ t.desc ≠ none) ∨
      (((p = .blockWord ∧ ∃ rest, decodeAt .blockWord (unread s) = .ok (.blockEnd, rest)) ∨ p = .contentChecksum) ∧
        t.desc = none)
end

