-- ==== Sys2Proof/Laws/Decode.lean ====
section
/-! SUPPORT. The laws of little-endian assembly and of the decoder (20_memory.md R55, 30_encoding.md R78). -/

namespace Sys2Proof

@[simp] theorem length_toLe (n v : Nat) : (toLe n v).length = n := by
  induction n generalizing v with
  | zero => rfl
  | succ n ih => simp [toLe, ih]

/-- Assembly after disassembly keeps the low n bytes. -/
theorem le_toLe (n v : Nat) : le (toLe n v) = v % 256 ^ n := by
  induction n generalizing v with
  | zero => simp [toLe, le, Nat.mod_one]
  | succ n ih =>
    simp only [toLe, le, ih, BitVec.toNat_ofNat]
    rw [show (2 : Nat) ^ 8 = 256 from rfl, Nat.pow_succ, Nat.mul_comm (256 ^ n) 256, Nat.mod_mul]

/-- Disassembly after assembly gives the bytes back. -/
theorem toLe_le (bs : List Byte) (n : Nat) (h : bs.length = n) : toLe n (le bs) = bs := by
  induction bs generalizing n with
  | nil => subst h; rfl
  | cons b bs ih =>
    subst h
    simp only [List.length_cons, toLe, le]
    rw [show (b.toNat + 256 * le bs) / 256 = le bs by have := b.isLt; omega, ih _ rfl]
    congr 1
    apply BitVec.eq_of_toNat_eq; simp; have := b.isLt; omega

theorem le_lt (bs : List Byte) : le bs < 256 ^ bs.length := by
  induction bs with
  | nil => simp [le]
  | cons b bs ih => simp only [le, List.length_cons, Nat.pow_succ]; have := b.isLt; omega

/-- A word of n bytes assembles from its own bytes. -/
theorem ofNat_le_toLe (n : Nat) (v : BitVec (8 * n)) : BitVec.ofNat (8 * n) (le (toLe n v.toNat)) = v := by
  apply BitVec.eq_of_toNat_eq
  rw [le_toLe, BitVec.toNat_ofNat, show 256 = 2 ^ 8 from rfl, ← Nat.pow_mul, Nat.mod_mod, Nat.mod_eq_of_lt v.isLt]

@[simp] theorem blockWordLen_of (raw : Bool) (n : Word31) : blockWordLen (blockWordOf raw n) = n := by
  unfold blockWordLen blockWordOf
  apply BitVec.eq_of_getLsbD_eq; intro i hi
  rw [BitVec.getLsbD_extractLsb', BitVec.getLsbD_append]; simp [hi]

@[simp] theorem blockWordRaw_of (raw : Bool) (n : Word31) : blockWordRaw (blockWordOf raw n) = raw := by
  unfold blockWordRaw blockWordOf
  rw [BitVec.getLsbD_append]; simp

/-- A block word is its flag and its length. -/
theorem blockWordOf_fields (w : Word32) : blockWordOf (blockWordRaw w) (blockWordLen w) = w := by
  unfold blockWordOf blockWordRaw blockWordLen
  apply BitVec.eq_of_getLsbD_eq
  intro i hi
  rw [BitVec.getLsbD_append]
  by_cases h31 : i < 31
  · simp [h31]
  · obtain rfl : i = 31 := by omega
    simp

end Sys2Proof
end

