-- ==== Sys2Proof/Laws/Memory.lean ====
section
/-! SUPPORT. The laws of storage: a read after a write, what a write leaves alone, and that every operation keeps the
canonical form. -/

namespace Sys2Proof

theorem Memory.wf_nil : Memory.wf [] := List.Pairwise.nil

theorem Memory.read_write_same (m : Memory) (a : Nat) (b : Byte) : Memory.read (Memory.write m a b) a = some b := by
  induction m with
  | nil => simp [Memory.write, Memory.read]
  | cons c m ih =>
    obtain ⟨a', b'⟩ := c
    unfold Memory.write
    split
    · simp [Memory.read]
    · split
      · simp [Memory.read]
      · rename_i h; simp [Memory.read, h, ih]

theorem Memory.read_write_other (m : Memory) {a x : Nat} (b : Byte) (h : x ≠ a) :
    Memory.read (Memory.write m a b) x = Memory.read m x := by
  induction m with
  | nil => simp [Memory.write, Memory.read, h]
  | cons c m ih =>
    obtain ⟨a', b'⟩ := c
    unfold Memory.write
    split
    · simp [Memory.read, h]
    · split
      · subst_vars; simp [Memory.read, h]
      · simp only [Memory.read, ih]

theorem Memory.mem_write {m : Memory} {a : Nat} {b : Byte} {c : Host.Cell} (h : c ∈ Memory.write m a b) :
    c.1 = a ∨ c ∈ m := by
  induction m with
  | nil => simp [Memory.write] at h; simp [h]
  | cons d m ih =>
    obtain ⟨a', b'⟩ := d
    unfold Memory.write at h
    split at h
    · rcases List.mem_cons.1 h with rfl | h
      · exact .inl rfl
      · exact .inr h
    · split at h
      · rcases List.mem_cons.1 h with rfl | h
        · exact .inl rfl
        · exact .inr (List.mem_cons_of_mem _ h)
      · rcases List.mem_cons.1 h with rfl | h
        · exact .inr (List.mem_cons_self ..)
        · exact (ih h).imp_right (List.mem_cons_of_mem _)

theorem Memory.wf_write {m : Memory} (h : Memory.wf m) (a : Nat) (b : Byte) : Memory.wf (Memory.write m a b) := by
  induction m with
  | nil => simp [Memory.write, Memory.wf]
  | cons c m ih =>
    obtain ⟨a', b'⟩ := c
    have hc : (∀ x ∈ m.map Prod.fst, a' < x) ∧ (m.map Prod.fst).Pairwise (· < ·) := List.pairwise_cons.1 h
    unfold Memory.write
    split
    · rename_i hlt
      refine List.pairwise_cons.2 ⟨fun x hx => ?_, h⟩
      rcases List.mem_cons.1 hx with rfl | hx
      · exact hlt
      · exact hlt.trans (hc.1 x hx)
    · split
      · rename_i heq; subst heq; exact List.pairwise_cons.2 hc
      · rename_i h1 h2
        refine List.pairwise_cons.2 ⟨fun x hx => ?_, ih hc.2⟩
        obtain ⟨d, hd, rfl⟩ := List.mem_map.1 hx
        rcases Memory.mem_write hd with h3 | h3
        · change a' < d.1; omega
        · exact hc.1 _ (List.mem_map.2 ⟨d, h3, rfl⟩)

theorem Memory.wf_writeBytes {m : Memory} (h : Memory.wf m) (a : Nat) (bs : List Byte) :
    Memory.wf (Memory.writeBytes m a bs) := by
  induction bs generalizing m a with
  | nil => exact h
  | cons b bs ih => exact ih (Memory.wf_write h a b) (a + 1)

theorem Memory.mem_writeBytes {m : Memory} {a : Nat} {bs : List Byte} {c : Host.Cell}
    (h : c ∈ Memory.writeBytes m a bs) : (a ≤ c.1 ∧ c.1 < a + bs.length) ∨ c ∈ m := by
  induction bs generalizing m a with
  | nil => exact .inr h
  | cons b bs ih =>
    rcases ih h with h | h
    · left; simp only [List.length_cons]; omega
    · rcases Memory.mem_write h with h | h
      · left; simp only [List.length_cons]; omega
      · exact .inr h

/-- Bytes written from a leave every other address alone. -/
theorem Memory.read_writeBytes_outside (m : Memory) (a : Nat) (bs : List Byte) {x : Nat}
    (h : x < a ∨ a + bs.length ≤ x) : Memory.read (Memory.writeBytes m a bs) x = Memory.read m x := by
  induction bs generalizing m a with
  | nil => rfl
  | cons b bs ih =>
    simp only [List.length_cons] at h
    rw [Memory.writeBytes, ih _ _ (by omega), Memory.read_write_other _ _ (by omega)]

/-- Bytes written from a read back as written. -/
theorem Memory.read_writeBytes_inside (m : Memory) (a : Nat) (bs : List Byte) {i : Nat} (h : i < bs.length) :
    Memory.read (Memory.writeBytes m a bs) (a + i) = some bs[i] := by
  induction bs generalizing m a i with
  | nil => simp at h
  | cons b bs ih =>
    rw [Memory.writeBytes]
    cases i with
    | zero =>
      rw [Memory.read_writeBytes_outside _ _ _ (by omega), Nat.add_zero, Memory.read_write_same]; rfl
    | succ i =>
      have := ih (Memory.write m a b) (a + 1) (i := i) (by simpa using h)
      rw [show a + (i + 1) = a + 1 + i by omega, this]; rfl

/-- A multi-byte read is the byte reads at consecutive addresses. -/
theorem Memory.readBytes_eq_some {m : Memory} {a n : Nat} {bs : List Byte} :
    Memory.readBytes m a n = some bs ↔ bs.length = n ∧ ∀ i (h : i < bs.length), Memory.read m (a + i) = some bs[i] := by
  induction n generalizing a bs with
  | zero =>
    simp only [Memory.readBytes, Option.some.injEq]
    constructor
    · rintro rfl; exact ⟨rfl, fun i h => absurd h (by simp)⟩
    · rintro ⟨h, -⟩; exact (List.length_eq_zero_iff.1 h).symm
  | succ n ih =>
    simp only [Memory.readBytes]
    constructor
    · intro h
      split at h
      · cases h
      · rename_i b hb
        obtain ⟨bs', h', rfl⟩ := Option.map_eq_some_iff.1 h
        obtain ⟨hl, hr⟩ := ih.1 h'
        refine ⟨by simp [hl], fun i hi => ?_⟩
        cases i with
        | zero => simpa using hb
        | succ i =>
          have := hr i (by simpa using hi)
          rw [show a + (i + 1) = a + 1 + i by omega, this]; rfl
    · rintro ⟨hl, hr⟩
      cases bs with
      | nil => simp at hl
      | cons b bs =>
        have h0 := hr 0 (by simp)
        simp only [Nat.add_zero, List.getElem_cons_zero] at h0
        rw [h0]
        refine Option.map_eq_some_iff.2 ⟨bs, ih.2 ⟨by simpa using hl, fun i hi => ?_⟩, rfl⟩
        have := hr (i + 1) (by simpa using hi)
        rw [show a + 1 + i = a + (i + 1) by omega, this]; rfl

theorem Memory.readBytes_writeBytes (m : Memory) (a : Nat) (bs : List Byte) :
    Memory.readBytes (Memory.writeBytes m a bs) a bs.length = some bs :=
  Memory.readBytes_eq_some.2 ⟨rfl, fun _ h => Memory.read_writeBytes_inside m a bs h⟩

theorem Memory.writeBytes_append (m : Memory) (a : Nat) (bs cs : List Byte) :
    Memory.writeBytes m a (bs ++ cs) = Memory.writeBytes (Memory.writeBytes m a bs) (a + bs.length) cs := by
  induction bs generalizing m a with
  | nil => rfl
  | cons b bs ih =>
    simp only [List.cons_append, Memory.writeBytes, List.length_cons, ih]
    rw [show a + (bs.length + 1) = a + 1 + bs.length by omega]

/-! ## Buffers -/

@[simp] theorem Buffer.size_write (b : Buffer) (a : Nat) (v : Byte) : (Buffer.write b a v).size = b.size := rfl
@[simp] theorem Buffer.size_writeBytes (b : Buffer) (a : Nat) (vs : List Byte) :
    (Buffer.writeBytes b a vs).size = b.size := rfl
@[simp] theorem Buffer.size_fresh (n : Nat) : (Buffer.fresh n).size = n := rfl

theorem Buffer.wf_fresh (n : Nat) : Buffer.wf (Buffer.fresh n) := ⟨Memory.wf_nil, by simp [Buffer.fresh]⟩

theorem Buffer.wf_writeBytes {b : Buffer} (h : Buffer.wf b) {a : Nat} {vs : List Byte}
    (hfit : vs = [] ∨ a + vs.length ≤ b.size) : Buffer.wf (Buffer.writeBytes b a vs) := by
  rcases hfit with rfl | hfit
  · exact h
  · refine ⟨Memory.wf_writeBytes h.1 a vs, fun c hc => ?_⟩
    rcases Memory.mem_writeBytes hc with hc | hc
    · simp only [Buffer.size_writeBytes]; omega
    · exact h.2 c hc

theorem Buffer.readBytes_writeBytes (b : Buffer) (a : Nat) (vs : List Byte) :
    Buffer.readBytes (Buffer.writeBytes b a vs) a vs.length = some vs :=
  Memory.readBytes_writeBytes b.cells a vs

theorem Buffer.read_writeBytes_outside (b : Buffer) (a : Nat) (vs : List Byte) {x : Nat}
    (h : x < a ∨ a + vs.length ≤ x) : Buffer.read (Buffer.writeBytes b a vs) x = Buffer.read b x :=
  Memory.read_writeBytes_outside b.cells a vs h

theorem Buffer.read_writeBytes_inside (b : Buffer) (a : Nat) (vs : List Byte) {i : Nat} (h : i < vs.length) :
    Buffer.read (Buffer.writeBytes b a vs) (a + i) = some vs[i] :=
  Memory.read_writeBytes_inside b.cells a vs h

theorem Buffer.writeBytes_append (b : Buffer) (a : Nat) (vs ws : List Byte) :
    Buffer.writeBytes b a (vs ++ ws) = Buffer.writeBytes (Buffer.writeBytes b a vs) (a + vs.length) ws := by
  simp [Buffer.writeBytes, Memory.writeBytes_append]

end Sys2Proof
end

