-- ==== Sys2Proof/Laws/State.lean ====
section
/-! SUPPORT. One lemma per field per update, so that no proof unfolds a record update. -/

namespace Sys2Proof.Machine

/-! ## finish -/

@[simp] theorem finish_mode (r : CmdResult) (s : State) : (finish r s).mode = s.mode := rfl
@[simp] theorem finish_err (r : CmdResult) (s : State) : (finish r s).err = s.err := rfl
@[simp] theorem finish_st (r : CmdResult) (s : State) : (finish r s).st = s.st := rfl
@[simp] theorem finish_pos (r : CmdResult) (s : State) : (finish r s).pos = s.pos := rfl
@[simp] theorem finish_desc (r : CmdResult) (s : State) : (finish r s).desc = s.desc := rfl
@[simp] theorem finish_blk (r : CmdResult) (s : State) : (finish r s).blk = s.blk := rfl
@[simp] theorem finish_hist (r : CmdResult) (s : State) : (finish r s).hist = s.hist := rfl
@[simp] theorem finish_pending (r : CmdResult) (s : State) : (finish r s).pending = s.pending := rfl
@[simp] theorem finish_scr (r : CmdResult) (s : State) : (finish r s).scr = s.scr := rfl
@[simp] theorem finish_scur (r : CmdResult) (s : State) : (finish r s).scur = s.scur := rfl
@[simp] theorem finish_work (r : CmdResult) (s : State) : (finish r s).work = s.work := rfl
@[simp] theorem finish_input (r : CmdResult) (s : State) : (finish r s).input = s.input := rfl
@[simp] theorem finish_srcClosed (r : CmdResult) (s : State) : (finish r s).srcClosed = s.srcClosed := rfl
@[simp] theorem finish_verifyBlock (r : CmdResult) (s : State) : (finish r s).verifyBlock = s.verifyBlock := rfl
@[simp] theorem finish_verifyContent (r : CmdResult) (s : State) : (finish r s).verifyContent = s.verifyContent := rfl
@[simp] theorem finish_cmds (r : CmdResult) (s : State) : (finish r s).cmds = s.cmds := rfl
@[simp] theorem finish_dst (r : CmdResult) (s : State) : (finish r s).dst = s.dst := rfl
@[simp] theorem finish_results (r : CmdResult) (s : State) : (finish r s).results = s.results ++ [r] := rfl
@[simp] theorem finish_phase (r : CmdResult) (s : State) : (finish r s).phase = .idle := rfl
@[simp] theorem finish_draws (r : CmdResult) (s : State) : (finish r s).draws = s.draws := rfl

/-! ## pushScr -/

@[simp] theorem pushScr_mode (b : Byte) (s : State) : (pushScr b s).mode = s.mode := rfl
@[simp] theorem pushScr_err (b : Byte) (s : State) : (pushScr b s).err = s.err := rfl
@[simp] theorem pushScr_st (b : Byte) (s : State) : (pushScr b s).st = s.st := rfl
@[simp] theorem pushScr_pos (b : Byte) (s : State) : (pushScr b s).pos = s.pos := rfl
@[simp] theorem pushScr_desc (b : Byte) (s : State) : (pushScr b s).desc = s.desc := rfl
@[simp] theorem pushScr_blk (b : Byte) (s : State) : (pushScr b s).blk = s.blk := rfl
@[simp] theorem pushScr_hist (b : Byte) (s : State) : (pushScr b s).hist = s.hist := rfl
@[simp] theorem pushScr_pending (b : Byte) (s : State) : (pushScr b s).pending = s.pending := rfl
@[simp] theorem pushScr_scr (b : Byte) (s : State) : (pushScr b s).scr = s.scr.setIfInBounds s.scur b := rfl
@[simp] theorem pushScr_scur (b : Byte) (s : State) : (pushScr b s).scur = s.scur + 1 := rfl
@[simp] theorem pushScr_work (b : Byte) (s : State) : (pushScr b s).work = s.work := rfl
@[simp] theorem pushScr_input (b : Byte) (s : State) : (pushScr b s).input = s.input := rfl
@[simp] theorem pushScr_srcClosed (b : Byte) (s : State) : (pushScr b s).srcClosed = s.srcClosed := rfl
@[simp] theorem pushScr_verifyBlock (b : Byte) (s : State) : (pushScr b s).verifyBlock = s.verifyBlock := rfl
@[simp] theorem pushScr_verifyContent (b : Byte) (s : State) : (pushScr b s).verifyContent = s.verifyContent := rfl
@[simp] theorem pushScr_cmds (b : Byte) (s : State) : (pushScr b s).cmds = s.cmds := rfl
@[simp] theorem pushScr_dst (b : Byte) (s : State) : (pushScr b s).dst = s.dst := rfl
@[simp] theorem pushScr_results (b : Byte) (s : State) : (pushScr b s).results = s.results := rfl
@[simp] theorem pushScr_phase (b : Byte) (s : State) : (pushScr b s).phase = s.phase := rfl
@[simp] theorem pushScr_draws (b : Byte) (s : State) : (pushScr b s).draws = s.draws := rfl

/-! ## setSt -/

@[simp] theorem setSt_mode (x : FrameState) (s : State) : (setSt x s).mode = s.mode := rfl
@[simp] theorem setSt_err (x : FrameState) (s : State) : (setSt x s).err = s.err := rfl
@[simp] theorem setSt_st (x : FrameState) (s : State) : (setSt x s).st = x := rfl
@[simp] theorem setSt_pos (x : FrameState) (s : State) : (setSt x s).pos = s.pos := rfl
@[simp] theorem setSt_desc (x : FrameState) (s : State) : (setSt x s).desc = s.desc := rfl
@[simp] theorem setSt_blk (x : FrameState) (s : State) : (setSt x s).blk = s.blk := rfl
@[simp] theorem setSt_hist (x : FrameState) (s : State) : (setSt x s).hist = s.hist := rfl
@[simp] theorem setSt_pending (x : FrameState) (s : State) : (setSt x s).pending = s.pending := rfl
@[simp] theorem setSt_scr (x : FrameState) (s : State) : (setSt x s).scr = s.scr := rfl
@[simp] theorem setSt_scur (x : FrameState) (s : State) : (setSt x s).scur = s.scur := rfl
@[simp] theorem setSt_work (x : FrameState) (s : State) : (setSt x s).work = s.work := rfl
@[simp] theorem setSt_input (x : FrameState) (s : State) : (setSt x s).input = s.input := rfl
@[simp] theorem setSt_srcClosed (x : FrameState) (s : State) : (setSt x s).srcClosed = s.srcClosed := rfl
@[simp] theorem setSt_verifyBlock (x : FrameState) (s : State) : (setSt x s).verifyBlock = s.verifyBlock := rfl
@[simp] theorem setSt_verifyContent (x : FrameState) (s : State) : (setSt x s).verifyContent = s.verifyContent := rfl
@[simp] theorem setSt_cmds (x : FrameState) (s : State) : (setSt x s).cmds = s.cmds := rfl
@[simp] theorem setSt_dst (x : FrameState) (s : State) : (setSt x s).dst = s.dst := rfl
@[simp] theorem setSt_results (x : FrameState) (s : State) : (setSt x s).results = s.results := rfl
@[simp] theorem setSt_phase (x : FrameState) (s : State) : (setSt x s).phase = s.phase := rfl
@[simp] theorem setSt_draws (x : FrameState) (s : State) : (setSt x s).draws = s.draws := rfl

/-! ## onWork -/

@[simp] theorem onWork_mode (f : Work → Work) (s : State) : (onWork f s).mode = s.mode := rfl
@[simp] theorem onWork_err (f : Work → Work) (s : State) : (onWork f s).err = s.err := rfl
@[simp] theorem onWork_st (f : Work → Work) (s : State) : (onWork f s).st = s.st := rfl
@[simp] theorem onWork_pos (f : Work → Work) (s : State) : (onWork f s).pos = s.pos := rfl
@[simp] theorem onWork_desc (f : Work → Work) (s : State) : (onWork f s).desc = s.desc := rfl
@[simp] theorem onWork_blk (f : Work → Work) (s : State) : (onWork f s).blk = s.blk := rfl
@[simp] theorem onWork_hist (f : Work → Work) (s : State) : (onWork f s).hist = s.hist := rfl
@[simp] theorem onWork_pending (f : Work → Work) (s : State) : (onWork f s).pending = s.pending := rfl
@[simp] theorem onWork_scr (f : Work → Work) (s : State) : (onWork f s).scr = s.scr := rfl
@[simp] theorem onWork_scur (f : Work → Work) (s : State) : (onWork f s).scur = s.scur := rfl
@[simp] theorem onWork_work (f : Work → Work) (s : State) : (onWork f s).work = f s.work := rfl
@[simp] theorem onWork_input (f : Work → Work) (s : State) : (onWork f s).input = s.input := rfl
@[simp] theorem onWork_srcClosed (f : Work → Work) (s : State) : (onWork f s).srcClosed = s.srcClosed := rfl
@[simp] theorem onWork_verifyBlock (f : Work → Work) (s : State) : (onWork f s).verifyBlock = s.verifyBlock := rfl
@[simp] theorem onWork_verifyContent (f : Work → Work) (s : State) : (onWork f s).verifyContent = s.verifyContent := rfl
@[simp] theorem onWork_cmds (f : Work → Work) (s : State) : (onWork f s).cmds = s.cmds := rfl
@[simp] theorem onWork_dst (f : Work → Work) (s : State) : (onWork f s).dst = s.dst := rfl
@[simp] theorem onWork_results (f : Work → Work) (s : State) : (onWork f s).results = s.results := rfl
@[simp] theorem onWork_phase (f : Work → Work) (s : State) : (onWork f s).phase = s.phase := rfl
@[simp] theorem onWork_draws (f : Work → Work) (s : State) : (onWork f s).draws = s.draws := rfl

/-! ## drain -/

@[simp] theorem drain_mode (s : State) : (drain s).mode = s.mode := rfl
@[simp] theorem drain_err (s : State) : (drain s).err = s.err := rfl
@[simp] theorem drain_st (s : State) : (drain s).st = s.st := rfl
@[simp] theorem drain_pos (s : State) : (drain s).pos = s.pos := rfl
@[simp] theorem drain_desc (s : State) : (drain s).desc = s.desc := rfl
@[simp] theorem drain_blk (s : State) : (drain s).blk = s.blk := rfl
@[simp] theorem drain_hist (s : State) : (drain s).hist = s.hist := rfl
@[simp] theorem drain_pending (s : State) : (drain s).pending = s.pending - drainCount s := rfl
@[simp] theorem drain_scr (s : State) : (drain s).scr = s.scr := rfl
@[simp] theorem drain_scur (s : State) : (drain s).scur = s.scur := rfl
@[simp] theorem drain_work (s : State) : (drain s).work = { s.work with
      dOff := s.work.dOff + drainCount s, remaining := s.work.remaining - drainCount s,
      delivered := s.work.delivered + drainCount s } := rfl
@[simp] theorem drain_input (s : State) : (drain s).input = s.input := rfl
@[simp] theorem drain_srcClosed (s : State) : (drain s).srcClosed = s.srcClosed := rfl
@[simp] theorem drain_verifyBlock (s : State) : (drain s).verifyBlock = s.verifyBlock := rfl
@[simp] theorem drain_verifyContent (s : State) : (drain s).verifyContent = s.verifyContent := rfl
@[simp] theorem drain_cmds (s : State) : (drain s).cmds = s.cmds := rfl
@[simp] theorem drain_dst (s : State) : (drain s).dst = Buffer.writeBytes s.dst s.work.dOff (drainBytes s) := rfl
@[simp] theorem drain_results (s : State) : (drain s).results = s.results := rfl
@[simp] theorem drain_phase (s : State) : (drain s).phase = s.phase := rfl
@[simp] theorem drain_draws (s : State) : (drain s).draws = s.draws := rfl

/-! ## appendHistory -/

@[simp] theorem appendHistory_mode (out : List Byte) (s : State) : (appendHistory out s).mode = s.mode := rfl
@[simp] theorem appendHistory_err (out : List Byte) (s : State) : (appendHistory out s).err = s.err := rfl
@[simp] theorem appendHistory_st (out : List Byte) (s : State) : (appendHistory out s).st = .awaitingBlock := rfl
@[simp] theorem appendHistory_pos (out : List Byte) (s : State) : (appendHistory out s).pos = s.pos := rfl
@[simp] theorem appendHistory_desc (out : List Byte) (s : State) : (appendHistory out s).desc = s.desc := rfl
@[simp] theorem appendHistory_blk (out : List Byte) (s : State) : (appendHistory out s).blk = s.blk := rfl
@[simp] theorem appendHistory_hist (out : List Byte) (s : State) : (appendHistory out s).hist = some (s.hist.getD [] ++ out) := rfl
@[simp] theorem appendHistory_pending (out : List Byte) (s : State) : (appendHistory out s).pending = out.length := rfl
@[simp] theorem appendHistory_scr (out : List Byte) (s : State) : (appendHistory out s).scr = s.scr := rfl
@[simp] theorem appendHistory_scur (out : List Byte) (s : State) : (appendHistory out s).scur = s.scur := rfl
@[simp] theorem appendHistory_work (out : List Byte) (s : State) : (appendHistory out s).work = { s.work with produced := out.length } := rfl
@[simp] theorem appendHistory_input (out : List Byte) (s : State) : (appendHistory out s).input = s.input := rfl
@[simp] theorem appendHistory_srcClosed (out : List Byte) (s : State) : (appendHistory out s).srcClosed = s.srcClosed := rfl
@[simp] theorem appendHistory_verifyBlock (out : List Byte) (s : State) : (appendHistory out s).verifyBlock = s.verifyBlock := rfl
@[simp] theorem appendHistory_verifyContent (out : List Byte) (s : State) : (appendHistory out s).verifyContent = s.verifyContent := rfl
@[simp] theorem appendHistory_cmds (out : List Byte) (s : State) : (appendHistory out s).cmds = s.cmds := rfl
@[simp] theorem appendHistory_dst (out : List Byte) (s : State) : (appendHistory out s).dst = s.dst := rfl
@[simp] theorem appendHistory_results (out : List Byte) (s : State) : (appendHistory out s).results = s.results := rfl
@[simp] theorem appendHistory_phase (out : List Byte) (s : State) : (appendHistory out s).phase = s.phase := rfl
@[simp] theorem appendHistory_draws (out : List Byte) (s : State) : (appendHistory out s).draws = s.draws := rfl

/-! ## advance -/

@[simp] theorem advance_mode (s : State) : (advance s).mode = s.mode := rfl
@[simp] theorem advance_err (s : State) : (advance s).err = s.err := rfl
@[simp] theorem advance_st (s : State) : (advance s).st = s.st := rfl
@[simp] theorem advance_pos (s : State) : (advance s).pos = s.pos + 1 := rfl
@[simp] theorem advance_desc (s : State) : (advance s).desc = s.desc := rfl
@[simp] theorem advance_blk (s : State) : (advance s).blk = s.blk := rfl
@[simp] theorem advance_hist (s : State) : (advance s).hist = s.hist := rfl
@[simp] theorem advance_pending (s : State) : (advance s).pending = s.pending := rfl
@[simp] theorem advance_scr (s : State) : (advance s).scr = s.scr := rfl
@[simp] theorem advance_scur (s : State) : (advance s).scur = s.scur := rfl
@[simp] theorem advance_work (s : State) : (advance s).work = s.work := rfl
@[simp] theorem advance_input (s : State) : (advance s).input = s.input := rfl
@[simp] theorem advance_srcClosed (s : State) : (advance s).srcClosed = s.srcClosed := rfl
@[simp] theorem advance_verifyBlock (s : State) : (advance s).verifyBlock = s.verifyBlock := rfl
@[simp] theorem advance_verifyContent (s : State) : (advance s).verifyContent = s.verifyContent := rfl
@[simp] theorem advance_cmds (s : State) : (advance s).cmds = s.cmds := rfl
@[simp] theorem advance_dst (s : State) : (advance s).dst = s.dst := rfl
@[simp] theorem advance_results (s : State) : (advance s).results = s.results := rfl
@[simp] theorem advance_phase (s : State) : (advance s).phase = s.phase := rfl
@[simp] theorem advance_draws (s : State) : (advance s).draws = s.draws := rfl

/-! ## storePayload -/

@[simp] theorem storePayload_mode (i : Nat) (b : Byte) (s : State) : (storePayload i b s).mode = s.mode := rfl
@[simp] theorem storePayload_err (i : Nat) (b : Byte) (s : State) : (storePayload i b s).err = s.err := rfl
@[simp] theorem storePayload_st (i : Nat) (b : Byte) (s : State) : (storePayload i b s).st = s.st := rfl
@[simp] theorem storePayload_pos (i : Nat) (b : Byte) (s : State) : (storePayload i b s).pos = s.pos := rfl
@[simp] theorem storePayload_desc (i : Nat) (b : Byte) (s : State) : (storePayload i b s).desc = s.desc := rfl
@[simp] theorem storePayload_blk (i : Nat) (b : Byte) (s : State) : (storePayload i b s).blk = s.blk.map fun buf => Buffer.write buf i b := rfl
@[simp] theorem storePayload_hist (i : Nat) (b : Byte) (s : State) : (storePayload i b s).hist = s.hist := rfl
@[simp] theorem storePayload_pending (i : Nat) (b : Byte) (s : State) : (storePayload i b s).pending = s.pending := rfl
@[simp] theorem storePayload_scr (i : Nat) (b : Byte) (s : State) : (storePayload i b s).scr = s.scr := rfl
@[simp] theorem storePayload_scur (i : Nat) (b : Byte) (s : State) : (storePayload i b s).scur = s.scur := rfl
@[simp] theorem storePayload_work (i : Nat) (b : Byte) (s : State) : (storePayload i b s).work = s.work := rfl
@[simp] theorem storePayload_input (i : Nat) (b : Byte) (s : State) : (storePayload i b s).input = s.input := rfl
@[simp] theorem storePayload_srcClosed (i : Nat) (b : Byte) (s : State) : (storePayload i b s).srcClosed = s.srcClosed := rfl
@[simp] theorem storePayload_verifyBlock (i : Nat) (b : Byte) (s : State) : (storePayload i b s).verifyBlock = s.verifyBlock := rfl
@[simp] theorem storePayload_verifyContent (i : Nat) (b : Byte) (s : State) : (storePayload i b s).verifyContent = s.verifyContent := rfl
@[simp] theorem storePayload_cmds (i : Nat) (b : Byte) (s : State) : (storePayload i b s).cmds = s.cmds := rfl
@[simp] theorem storePayload_dst (i : Nat) (b : Byte) (s : State) : (storePayload i b s).dst = s.dst := rfl
@[simp] theorem storePayload_results (i : Nat) (b : Byte) (s : State) : (storePayload i b s).results = s.results := rfl
@[simp] theorem storePayload_phase (i : Nat) (b : Byte) (s : State) : (storePayload i b s).phase = s.phase := rfl
@[simp] theorem storePayload_draws (i : Nat) (b : Byte) (s : State) : (storePayload i b s).draws = s.draws := rfl

/-! ## read0 -/

@[simp] theorem read0_mode (s : State) : (read0 s).mode = s.mode := rfl
@[simp] theorem read0_err (s : State) : (read0 s).err = s.err := rfl
@[simp] theorem read0_st (s : State) : (read0 s).st = s.st := rfl
@[simp] theorem read0_pos (s : State) : (read0 s).pos = s.pos := rfl
@[simp] theorem read0_desc (s : State) : (read0 s).desc = s.desc := rfl
@[simp] theorem read0_blk (s : State) : (read0 s).blk = s.blk := rfl
@[simp] theorem read0_hist (s : State) : (read0 s).hist = s.hist := rfl
@[simp] theorem read0_pending (s : State) : (read0 s).pending = s.pending := rfl
@[simp] theorem read0_scr (s : State) : (read0 s).scr = s.scr := rfl
@[simp] theorem read0_scur (s : State) : (read0 s).scur = 0 := rfl
@[simp] theorem read0_work (s : State) : (read0 s).work = s.work := rfl
@[simp] theorem read0_input (s : State) : (read0 s).input = s.input := rfl
@[simp] theorem read0_srcClosed (s : State) : (read0 s).srcClosed = s.srcClosed := rfl
@[simp] theorem read0_verifyBlock (s : State) : (read0 s).verifyBlock = s.verifyBlock := rfl
@[simp] theorem read0_verifyContent (s : State) : (read0 s).verifyContent = s.verifyContent := rfl
@[simp] theorem read0_cmds (s : State) : (read0 s).cmds = s.cmds := rfl
@[simp] theorem read0_dst (s : State) : (read0 s).dst = s.dst := rfl
@[simp] theorem read0_results (s : State) : (read0 s).results = s.results := rfl
@[simp] theorem read0_phase (s : State) : (read0 s).phase = s.phase := rfl
@[simp] theorem read0_draws (s : State) : (read0 s).draws = s.draws := rfl

/-! ## startFrame -/

@[simp] theorem startFrame_mode (d : FrameDescriptor) (s : State) : (startFrame d s).mode = s.mode := rfl
@[simp] theorem startFrame_err (d : FrameDescriptor) (s : State) : (startFrame d s).err = s.err := rfl
@[simp] theorem startFrame_st (d : FrameDescriptor) (s : State) : (startFrame d s).st = .awaitingBlock := rfl
@[simp] theorem startFrame_pos (d : FrameDescriptor) (s : State) : (startFrame d s).pos = s.pos := rfl
@[simp] theorem startFrame_desc (d : FrameDescriptor) (s : State) : (startFrame d s).desc = some d := rfl
@[simp] theorem startFrame_blk (d : FrameDescriptor) (s : State) : (startFrame d s).blk = some (Buffer.fresh d.maxBlockSize) := rfl
@[simp] theorem startFrame_hist (d : FrameDescriptor) (s : State) : (startFrame d s).hist = some [] := rfl
@[simp] theorem startFrame_pending (d : FrameDescriptor) (s : State) : (startFrame d s).pending = 0 := rfl
@[simp] theorem startFrame_scr (d : FrameDescriptor) (s : State) : (startFrame d s).scr = s.scr := rfl
@[simp] theorem startFrame_scur (d : FrameDescriptor) (s : State) : (startFrame d s).scur = s.scur := rfl
@[simp] theorem startFrame_work (d : FrameDescriptor) (s : State) : (startFrame d s).work = s.work := rfl
@[simp] theorem startFrame_input (d : FrameDescriptor) (s : State) : (startFrame d s).input = s.input := rfl
@[simp] theorem startFrame_srcClosed (d : FrameDescriptor) (s : State) : (startFrame d s).srcClosed = s.srcClosed := rfl
@[simp] theorem startFrame_verifyBlock (d : FrameDescriptor) (s : State) : (startFrame d s).verifyBlock = s.verifyBlock := rfl
@[simp] theorem startFrame_verifyContent (d : FrameDescriptor) (s : State) : (startFrame d s).verifyContent = s.verifyContent := rfl
@[simp] theorem startFrame_cmds (d : FrameDescriptor) (s : State) : (startFrame d s).cmds = s.cmds := rfl
@[simp] theorem startFrame_dst (d : FrameDescriptor) (s : State) : (startFrame d s).dst = s.dst := rfl
@[simp] theorem startFrame_results (d : FrameDescriptor) (s : State) : (startFrame d s).results = s.results := rfl
@[simp] theorem startFrame_phase (d : FrameDescriptor) (s : State) : (startFrame d s).phase = s.phase := rfl
@[simp] theorem startFrame_draws (d : FrameDescriptor) (s : State) : (startFrame d s).draws = s.draws := rfl

/-! ## teardown -/

@[simp] theorem teardown_mode (s : State) : (teardown s).mode = s.mode := rfl
@[simp] theorem teardown_err (s : State) : (teardown s).err = s.err := rfl
@[simp] theorem teardown_st (s : State) : (teardown s).st = .awaitingFrame := rfl
@[simp] theorem teardown_pos (s : State) : (teardown s).pos = s.pos := rfl
@[simp] theorem teardown_desc (s : State) : (teardown s).desc = none := rfl
@[simp] theorem teardown_blk (s : State) : (teardown s).blk = none := rfl
@[simp] theorem teardown_hist (s : State) : (teardown s).hist = none := rfl
@[simp] theorem teardown_pending (s : State) : (teardown s).pending = 0 := rfl
@[simp] theorem teardown_scr (s : State) : (teardown s).scr = s.scr := rfl
@[simp] theorem teardown_scur (s : State) : (teardown s).scur = s.scur := rfl
@[simp] theorem teardown_work (s : State) : (teardown s).work = s.work := rfl
@[simp] theorem teardown_input (s : State) : (teardown s).input = s.input := rfl
@[simp] theorem teardown_srcClosed (s : State) : (teardown s).srcClosed = s.srcClosed := rfl
@[simp] theorem teardown_verifyBlock (s : State) : (teardown s).verifyBlock = s.verifyBlock := rfl
@[simp] theorem teardown_verifyContent (s : State) : (teardown s).verifyContent = s.verifyContent := rfl
@[simp] theorem teardown_cmds (s : State) : (teardown s).cmds = s.cmds := rfl
@[simp] theorem teardown_dst (s : State) : (teardown s).dst = s.dst := rfl
@[simp] theorem teardown_results (s : State) : (teardown s).results = s.results := rfl
@[simp] theorem teardown_phase (s : State) : (teardown s).phase = s.phase := rfl
@[simp] theorem teardown_draws (s : State) : (teardown s).draws = s.draws := rfl

/-! ## expect -/

@[simp] theorem expect_mode (p : Position) (s : State) : (expect p s).mode = s.mode := rfl
@[simp] theorem expect_err (p : Position) (s : State) : (expect p s).err = s.err := rfl
@[simp] theorem expect_st (p : Position) (s : State) : (expect p s).st = s.st := rfl
@[simp] theorem expect_pos (p : Position) (s : State) : (expect p s).pos = s.pos := rfl
@[simp] theorem expect_desc (p : Position) (s : State) : (expect p s).desc = s.desc := rfl
@[simp] theorem expect_blk (p : Position) (s : State) : (expect p s).blk = s.blk := rfl
@[simp] theorem expect_hist (p : Position) (s : State) : (expect p s).hist = s.hist := rfl
@[simp] theorem expect_pending (p : Position) (s : State) : (expect p s).pending = s.pending := rfl
@[simp] theorem expect_scr (p : Position) (s : State) : (expect p s).scr = s.scr := rfl
@[simp] theorem expect_scur (p : Position) (s : State) : (expect p s).scur = s.scur := rfl
@[simp] theorem expect_work (p : Position) (s : State) : (expect p s).work = s.work := rfl
@[simp] theorem expect_input (p : Position) (s : State) : (expect p s).input = s.input := rfl
@[simp] theorem expect_srcClosed (p : Position) (s : State) : (expect p s).srcClosed = s.srcClosed := rfl
@[simp] theorem expect_verifyBlock (p : Position) (s : State) : (expect p s).verifyBlock = s.verifyBlock := rfl
@[simp] theorem expect_verifyContent (p : Position) (s : State) : (expect p s).verifyContent = s.verifyContent := rfl
@[simp] theorem expect_cmds (p : Position) (s : State) : (expect p s).cmds = s.cmds := rfl
@[simp] theorem expect_dst (p : Position) (s : State) : (expect p s).dst = s.dst := rfl
@[simp] theorem expect_results (p : Position) (s : State) : (expect p s).results = s.results := rfl
@[simp] theorem expect_phase (p : Position) (s : State) : (expect p s).phase = .reading p := rfl
@[simp] theorem expect_draws (p : Position) (s : State) : (expect p s).draws = s.draws := rfl

/-! ## latchBlockWord -/

@[simp] theorem latchBlockWord_mode (raw : Bool) (len : Word31) (s : State) : (latchBlockWord raw len s).mode = s.mode := rfl
@[simp] theorem latchBlockWord_err (raw : Bool) (len : Word31) (s : State) : (latchBlockWord raw len s).err = s.err := rfl
@[simp] theorem latchBlockWord_st (raw : Bool) (len : Word31) (s : State) : (latchBlockWord raw len s).st = s.st := rfl
@[simp] theorem latchBlockWord_pos (raw : Bool) (len : Word31) (s : State) : (latchBlockWord raw len s).pos = s.pos := rfl
@[simp] theorem latchBlockWord_desc (raw : Bool) (len : Word31) (s : State) : (latchBlockWord raw len s).desc = s.desc := rfl
@[simp] theorem latchBlockWord_blk (raw : Bool) (len : Word31) (s : State) : (latchBlockWord raw len s).blk = s.blk := rfl
@[simp] theorem latchBlockWord_hist (raw : Bool) (len : Word31) (s : State) : (latchBlockWord raw len s).hist = s.hist := rfl
@[simp] theorem latchBlockWord_pending (raw : Bool) (len : Word31) (s : State) : (latchBlockWord raw len s).pending = s.pending := rfl
@[simp] theorem latchBlockWord_scr (raw : Bool) (len : Word31) (s : State) : (latchBlockWord raw len s).scr = s.scr := rfl
@[simp] theorem latchBlockWord_scur (raw : Bool) (len : Word31) (s : State) : (latchBlockWord raw len s).scur = s.scur := rfl
@[simp] theorem latchBlockWord_work (raw : Bool) (len : Word31) (s : State) : (latchBlockWord raw len s).work = { s.work with blkWord := blockWordOf raw len, blkRaw := raw, blkLen := len } := rfl
@[simp] theorem latchBlockWord_input (raw : Bool) (len : Word31) (s : State) : (latchBlockWord raw len s).input = s.input := rfl
@[simp] theorem latchBlockWord_srcClosed (raw : Bool) (len : Word31) (s : State) : (latchBlockWord raw len s).srcClosed = s.srcClosed := rfl
@[simp] theorem latchBlockWord_verifyBlock (raw : Bool) (len : Word31) (s : State) : (latchBlockWord raw len s).verifyBlock = s.verifyBlock := rfl
@[simp] theorem latchBlockWord_verifyContent (raw : Bool) (len : Word31) (s : State) : (latchBlockWord raw len s).verifyContent = s.verifyContent := rfl
@[simp] theorem latchBlockWord_cmds (raw : Bool) (len : Word31) (s : State) : (latchBlockWord raw len s).cmds = s.cmds := rfl
@[simp] theorem latchBlockWord_dst (raw : Bool) (len : Word31) (s : State) : (latchBlockWord raw len s).dst = s.dst := rfl
@[simp] theorem latchBlockWord_results (raw : Bool) (len : Word31) (s : State) : (latchBlockWord raw len s).results = s.results := rfl
@[simp] theorem latchBlockWord_phase (raw : Bool) (len : Word31) (s : State) : (latchBlockWord raw len s).phase = s.phase := rfl
@[simp] theorem latchBlockWord_draws (raw : Bool) (len : Word31) (s : State) : (latchBlockWord raw len s).draws = s.draws := rfl

/-! ## beginRead -/

@[simp] theorem beginRead_mode (d : Buffer) (o : Nat) (m : Int) (s : State) : (beginRead d o m s).mode = s.mode := rfl
@[simp] theorem beginRead_err (d : Buffer) (o : Nat) (m : Int) (s : State) : (beginRead d o m s).err = s.err := rfl
@[simp] theorem beginRead_st (d : Buffer) (o : Nat) (m : Int) (s : State) : (beginRead d o m s).st = s.st := rfl
@[simp] theorem beginRead_pos (d : Buffer) (o : Nat) (m : Int) (s : State) : (beginRead d o m s).pos = s.pos := rfl
@[simp] theorem beginRead_desc (d : Buffer) (o : Nat) (m : Int) (s : State) : (beginRead d o m s).desc = s.desc := rfl
@[simp] theorem beginRead_blk (d : Buffer) (o : Nat) (m : Int) (s : State) : (beginRead d o m s).blk = s.blk := rfl
@[simp] theorem beginRead_hist (d : Buffer) (o : Nat) (m : Int) (s : State) : (beginRead d o m s).hist = s.hist := rfl
@[simp] theorem beginRead_pending (d : Buffer) (o : Nat) (m : Int) (s : State) : (beginRead d o m s).pending = s.pending := rfl
@[simp] theorem beginRead_scr (d : Buffer) (o : Nat) (m : Int) (s : State) : (beginRead d o m s).scr = s.scr := rfl
@[simp] theorem beginRead_scur (d : Buffer) (o : Nat) (m : Int) (s : State) : (beginRead d o m s).scur = s.scur := rfl
@[simp] theorem beginRead_work (d : Buffer) (o : Nat) (m : Int) (s : State) : (beginRead d o m s).work = { s.work with remaining := m.toNat, delivered := 0, dOff := o } := rfl
@[simp] theorem beginRead_input (d : Buffer) (o : Nat) (m : Int) (s : State) : (beginRead d o m s).input = s.input := rfl
@[simp] theorem beginRead_srcClosed (d : Buffer) (o : Nat) (m : Int) (s : State) : (beginRead d o m s).srcClosed = s.srcClosed := rfl
@[simp] theorem beginRead_verifyBlock (d : Buffer) (o : Nat) (m : Int) (s : State) : (beginRead d o m s).verifyBlock = s.verifyBlock := rfl
@[simp] theorem beginRead_verifyContent (d : Buffer) (o : Nat) (m : Int) (s : State) : (beginRead d o m s).verifyContent = s.verifyContent := rfl
@[simp] theorem beginRead_cmds (d : Buffer) (o : Nat) (m : Int) (s : State) : (beginRead d o m s).cmds = s.cmds := rfl
@[simp] theorem beginRead_dst (d : Buffer) (o : Nat) (m : Int) (s : State) : (beginRead d o m s).dst = d := rfl
@[simp] theorem beginRead_results (d : Buffer) (o : Nat) (m : Int) (s : State) : (beginRead d o m s).results = s.results := rfl
@[simp] theorem beginRead_phase (d : Buffer) (o : Nat) (m : Int) (s : State) : (beginRead d o m s).phase = s.phase := rfl
@[simp] theorem beginRead_draws (d : Buffer) (o : Nat) (m : Int) (s : State) : (beginRead d o m s).draws = s.draws := rfl

/-! ## closeBlock -/

@[simp] theorem closeBlock_mode (s : State) : (closeBlock s).mode = .closed := rfl
@[simp] theorem closeBlock_err (s : State) : (closeBlock s).err = s.err := rfl
@[simp] theorem closeBlock_st (s : State) : (closeBlock s).st = .awaitingFrame := rfl
@[simp] theorem closeBlock_pos (s : State) : (closeBlock s).pos = s.pos := rfl
@[simp] theorem closeBlock_desc (s : State) : (closeBlock s).desc = none := rfl
@[simp] theorem closeBlock_blk (s : State) : (closeBlock s).blk = none := rfl
@[simp] theorem closeBlock_hist (s : State) : (closeBlock s).hist = none := rfl
@[simp] theorem closeBlock_pending (s : State) : (closeBlock s).pending = 0 := rfl
@[simp] theorem closeBlock_scr (s : State) : (closeBlock s).scr = s.scr := rfl
@[simp] theorem closeBlock_scur (s : State) : (closeBlock s).scur = s.scur := rfl
@[simp] theorem closeBlock_work (s : State) : (closeBlock s).work = s.work := rfl
@[simp] theorem closeBlock_input (s : State) : (closeBlock s).input = s.input := rfl
@[simp] theorem closeBlock_srcClosed (s : State) : (closeBlock s).srcClosed = true := rfl
@[simp] theorem closeBlock_verifyBlock (s : State) : (closeBlock s).verifyBlock = s.verifyBlock := rfl
@[simp] theorem closeBlock_verifyContent (s : State) : (closeBlock s).verifyContent = s.verifyContent := rfl
@[simp] theorem closeBlock_cmds (s : State) : (closeBlock s).cmds = s.cmds := rfl
@[simp] theorem closeBlock_dst (s : State) : (closeBlock s).dst = s.dst := rfl
@[simp] theorem closeBlock_results (s : State) : (closeBlock s).results = s.results := rfl
@[simp] theorem closeBlock_phase (s : State) : (closeBlock s).phase = s.phase := rfl
@[simp] theorem closeBlock_draws (s : State) : (closeBlock s).draws = s.draws := rfl

/-! ## raise -/

theorem raise_eq (e : BlockError) (s : State) :
    raise e s = finish (.error e.code e) { s with
      mode := if e.fatal then .failed else s.mode, err := if e.fatal then e.code else s.err } := by
  unfold raise recordError; split <;> rfl

@[simp] theorem raise_mode (e : BlockError) (s : State) : (raise e s).mode = if e.fatal then .failed else s.mode := by rw [raise_eq]; rfl
@[simp] theorem raise_err (e : BlockError) (s : State) : (raise e s).err = if e.fatal then e.code else s.err := by rw [raise_eq]; rfl
@[simp] theorem raise_st (e : BlockError) (s : State) : (raise e s).st = s.st := by rw [raise_eq]; rfl
@[simp] theorem raise_pos (e : BlockError) (s : State) : (raise e s).pos = s.pos := by rw [raise_eq]; rfl
@[simp] theorem raise_desc (e : BlockError) (s : State) : (raise e s).desc = s.desc := by rw [raise_eq]; rfl
@[simp] theorem raise_blk (e : BlockError) (s : State) : (raise e s).blk = s.blk := by rw [raise_eq]; rfl
@[simp] theorem raise_hist (e : BlockError) (s : State) : (raise e s).hist = s.hist := by rw [raise_eq]; rfl
@[simp] theorem raise_pending (e : BlockError) (s : State) : (raise e s).pending = s.pending := by rw [raise_eq]; rfl
@[simp] theorem raise_scr (e : BlockError) (s : State) : (raise e s).scr = s.scr := by rw [raise_eq]; rfl
@[simp] theorem raise_scur (e : BlockError) (s : State) : (raise e s).scur = s.scur := by rw [raise_eq]; rfl
@[simp] theorem raise_work (e : BlockError) (s : State) : (raise e s).work = s.work := by rw [raise_eq]; rfl
@[simp] theorem raise_input (e : BlockError) (s : State) : (raise e s).input = s.input := by rw [raise_eq]; rfl
@[simp] theorem raise_srcClosed (e : BlockError) (s : State) : (raise e s).srcClosed = s.srcClosed := by rw [raise_eq]; rfl
@[simp] theorem raise_verifyBlock (e : BlockError) (s : State) : (raise e s).verifyBlock = s.verifyBlock := by rw [raise_eq]; rfl
@[simp] theorem raise_verifyContent (e : BlockError) (s : State) : (raise e s).verifyContent = s.verifyContent := by rw [raise_eq]; rfl
@[simp] theorem raise_cmds (e : BlockError) (s : State) : (raise e s).cmds = s.cmds := by rw [raise_eq]; rfl
@[simp] theorem raise_dst (e : BlockError) (s : State) : (raise e s).dst = s.dst := by rw [raise_eq]; rfl
@[simp] theorem raise_results (e : BlockError) (s : State) : (raise e s).results = s.results ++ [.error e.code e] := by rw [raise_eq]; rfl
@[simp] theorem raise_phase (e : BlockError) (s : State) : (raise e s).phase = .idle := by rw [raise_eq]; rfl
@[simp] theorem raise_draws (e : BlockError) (s : State) : (raise e s).draws = s.draws := by rw [raise_eq]; rfl

end Sys2Proof.Machine
end

