-- ==== Sys2Proof/Laws/Ops.lean ====
section
/-! SUPPORT. One lemma per shared operation that says everything it can do. -/

namespace Sys2Proof.Machine

/-! ## SrcRead -/

theorem srcRead_eq (s : State) :
    srcRead s = match unread s with
      | [] => none
      | b :: _ => some (b, advance s) := by
  unfold srcRead unread
  by_cases h : s.pos < s.input.length
  · rw [List.drop_eq_getElem_cons h, List.getElem?_eq_getElem h]
  · rw [List.drop_eq_nil_of_le (by omega), List.getElem?_eq_none (by omega)]

theorem unread_advance {s : State} {b : Byte} {bs : List Byte} (h : unread s = b :: bs) {t : State}
    (hi : t.input = s.input) (hp : t.pos = s.pos + 1) : unread t = bs := by
  unfold unread at *
  rw [hi, hp, ← List.drop_drop, h]; rfl

theorem length_unread (s : State) : (unread s).length = s.input.length - s.pos := List.length_drop

/-! ## consumed -/

@[simp] theorem consumed_nil (s : State) : consumed [] s = s := rfl

theorem consumed_eq (bs : List Byte) (s : State) :
    consumed bs s =
      { s with pos := s.pos + bs.length, scur := s.scur + bs.length, scr := (consumed bs s).scr } := by
  induction bs generalizing s with
  | nil => rfl
  | cons b bs ih =>
    rw [consumed, ih]
    simp only [pushScr_pos, pushScr_scur, advance_pos, advance_scur, List.length_cons]
    simp only [pushScr, advance, Nat.add_assoc, Nat.add_comm bs.length 1]

@[simp] theorem consumed_pos (bs s) : (consumed bs s).pos = s.pos + bs.length := by rw [consumed_eq]
@[simp] theorem consumed_scur (bs s) : (consumed bs s).scur = s.scur + bs.length := by rw [consumed_eq]
@[simp] theorem consumed_mode (bs s) : (consumed bs s).mode = s.mode := by rw [consumed_eq]
@[simp] theorem consumed_err (bs s) : (consumed bs s).err = s.err := by rw [consumed_eq]
@[simp] theorem consumed_st (bs s) : (consumed bs s).st = s.st := by rw [consumed_eq]
@[simp] theorem consumed_desc (bs s) : (consumed bs s).desc = s.desc := by rw [consumed_eq]
@[simp] theorem consumed_blk (bs s) : (consumed bs s).blk = s.blk := by rw [consumed_eq]
@[simp] theorem consumed_hist (bs s) : (consumed bs s).hist = s.hist := by rw [consumed_eq]
@[simp] theorem consumed_pending (bs s) : (consumed bs s).pending = s.pending := by rw [consumed_eq]
@[simp] theorem consumed_work (bs s) : (consumed bs s).work = s.work := by rw [consumed_eq]
@[simp] theorem consumed_input (bs s) : (consumed bs s).input = s.input := by rw [consumed_eq]
@[simp] theorem consumed_srcClosed (bs s) : (consumed bs s).srcClosed = s.srcClosed := by rw [consumed_eq]
@[simp] theorem consumed_verifyBlock (bs s) : (consumed bs s).verifyBlock = s.verifyBlock := by rw [consumed_eq]
@[simp] theorem consumed_verifyContent (bs s) : (consumed bs s).verifyContent = s.verifyContent := by rw [consumed_eq]
@[simp] theorem consumed_cmds (bs s) : (consumed bs s).cmds = s.cmds := by rw [consumed_eq]
@[simp] theorem consumed_dst (bs s) : (consumed bs s).dst = s.dst := by rw [consumed_eq]
@[simp] theorem consumed_results (bs s) : (consumed bs s).results = s.results := by rw [consumed_eq]
@[simp] theorem consumed_phase (bs s) : (consumed bs s).phase = s.phase := by rw [consumed_eq]
@[simp] theorem consumed_draws (bs s) : (consumed bs s).draws = s.draws := by rw [consumed_eq]

/-- The scratch below the cursor grows by exactly the bytes consumed (10_state.md R29). -/
theorem scratchBytes_consumed (bs : List Byte) (s : State) (h : s.scur + bs.length ≤ 16) :
    scratchBytes (consumed bs s) = scratchBytes s ++ bs := by
  induction bs generalizing s with
  | nil => simp
  | cons b bs ih =>
    simp only [List.length_cons] at h
    rw [consumed, ih _ (by simp only [pushScr_scur, advance_scur]; omega)]
    unfold scratchBytes
    simp only [pushScr_scr, pushScr_scur, advance_scr, advance_scur, Vector.toList_setIfInBounds]
    rw [List.take_add_one, List.getElem?_set_self (by simp; omega), List.take_set_of_le (by omega)]
    simp

/-! ## The fixed-width reads -/

/-- Everything `readExactFrom` can do: the bytes asked for, or the rest of the input and a truncation (R131). -/
theorem readExactFrom_eq (got n : Nat) (s : State) :
    readExactFrom got n s =
      if n ≤ (unread s).length then .bytes ((unread s).take n) (consumed ((unread s).take n) s)
      else .short (got + (unread s).length) (consumed (unread s) s) := by
  induction n generalizing got s with
  | zero => simp [readExactFrom]
  | succ n ih =>
    rw [readExactFrom, srcRead_eq]
    cases h : unread s with
    | nil => simp
    | cons b bs =>
      have h1 : unread (pushScr b (advance s)) = bs := unread_advance h rfl rfl
      simp only [ih, h1, List.length_cons, List.take_succ_cons, consumed, Nat.add_le_add_iff_right]
      by_cases hl : n ≤ bs.length
      · simp only [hl, if_true]
      · simp only [hl, if_false, Nat.add_assoc, Nat.add_comm 1]

theorem readExact_eq (n : Nat) (s : State) :
    readExact n s =
      if n ≤ (unread s).length then .bytes ((unread s).take n) (consumed ((unread s).take n) s)
      else .short (unread s).length (consumed (unread s) s) := by
  rw [readExact, readExactFrom_eq, Nat.zero_add]

/-- Everything `tryReadExact` can do (R132). -/
theorem tryReadExact_eq {n : Nat} (hn : 0 < n) (s : State) :
    tryReadExact n s =
      if unread s = [] then .noData s
      else if n ≤ (unread s).length then .bytes ((unread s).take n) (consumed ((unread s).take n) s)
      else .short (unread s).length (consumed (unread s) s) := by
  obtain ⟨n, rfl⟩ : ∃ k, n = k + 1 := ⟨n - 1, by omega⟩
  rw [tryReadExact, srcRead_eq]
  cases h : unread s with
  | nil => simp
  | cons b bs =>
    have h1 : unread (pushScr b (advance s)) = bs := unread_advance h rfl rfl
    simp only [Nat.add_sub_cancel, readExactFrom_eq, h1, reduceCtorEq, if_false, List.length_cons,
      List.take_succ_cons, consumed, Nat.add_le_add_iff_right]
    by_cases hl : n ≤ bs.length
    · simp only [hl, if_true]
    · simp only [hl, if_false, Nat.add_comm 1]

/-! ## The payload read -/

theorem loaded_eq (i : Nat) (bs : List Byte) (s : State) :
    loaded i bs s =
      { s with pos := s.pos + bs.length, blk := s.blk.map fun b => Buffer.writeBytes b i bs } := by
  induction bs generalizing i s with
  | nil =>
    have : (fun b : Buffer => Buffer.writeBytes b i []) = id := by funext b; rfl
    rw [this]; simp [loaded]
  | cons b bs ih =>
    rw [loaded, ih]
    simp only [List.length_cons, storePayload_pos, storePayload_blk, advance_pos, advance_blk, Option.map_map]
    rw [show s.pos + 1 + bs.length = s.pos + (bs.length + 1) by omega]
    rfl

theorem readPayloadFrom_eq (got n : Nat) (s : State) :
    readPayloadFrom got n s =
      if n ≤ (unread s).length then .complete (loaded got ((unread s).take n) s)
      else .short (got + (unread s).length) (loaded got (unread s) s) := by
  induction n generalizing got s with
  | zero => simp [readPayloadFrom, loaded]
  | succ n ih =>
    rw [readPayloadFrom, srcRead_eq]
    cases h : unread s with
    | nil => simp [loaded]
    | cons b bs =>
      have h1 : unread (storePayload got b (advance s)) = bs :=
        unread_advance h rfl rfl
      simp only [ih, h1, List.length_cons, List.take_succ_cons, loaded, Nat.add_le_add_iff_right]
      by_cases hl : n ≤ bs.length
      · simp only [hl, if_true]
      · simp only [hl, if_false, Nat.add_assoc, Nat.add_comm 1]

/-- Everything `readPayload` can do (R136). -/
theorem readPayload_eq (n : Nat) (s : State) :
    readPayload n s =
      if n ≤ (unread s).length then .complete (loaded 0 ((unread s).take n) s)
      else .short (unread s).length (loaded 0 (unread s) s) := by
  rw [readPayload, readPayloadFrom_eq, Nat.zero_add]

/-! ## The fetch -/

/-- Decoding a full field never fails. -/
theorem decodeAt_full (p : Position) (bs : List Byte) (h : bs.length = p.width) :
    decodeAt p bs = .ok (decodeField p bs, []) := by
  have hp : 0 < p.width := by cases p <;> decide
  have hne : bs ≠ [] := by rintro rfl; simp at h; omega
  unfold decodeAt
  rw [if_neg (by simp [hne]), if_neg (by omega), List.take_of_length_le (by omega), List.drop_eq_nil_of_le (by omega)]

/-- Everything a fetch can do (42_primitive_reader.md R131, R132). -/
theorem fetchAt_eq (p : Position) (s : State) :
    fetchAt p s =
      if p = .magic ∧ unread s = [] then .instr .endOfStream s
      else if p.width ≤ (unread s).length then
        .instr (decodeField p ((unread s).take p.width)) (consumed ((unread s).take p.width) s)
      else .truncated p (unread s).length (consumed (unread s) s) := by
  have hw : ∀ q : Position, 0 < q.width := fun q => by cases q <;> decide
  have hfull : ∀ q : Position, q.width ≤ (unread s).length → ((unread s).take q.width).length = q.width :=
    fun q h => by rw [List.length_take]; omega
  unfold fetchAt readField
  by_cases hp : p = .magic
  · subst hp
    rw [if_pos rfl, tryReadExact_eq (hw _)]
    by_cases h0 : unread s = []
    · simp [h0]
    · have e : ¬(Position.magic = .magic ∧ unread s = []) := fun h => h0 h.2
      rw [if_neg h0, if_neg e]
      by_cases hl : Position.width .magic ≤ (unread s).length
      · rw [if_pos hl, if_pos hl]; simp only [decodeAt_full _ _ (hfull _ hl)]
      · rw [if_neg hl, if_neg hl]
  · have e : ¬(p = .magic ∧ unread s = []) := fun h => hp h.1
    rw [if_neg hp, readExact_eq, if_neg e]
    by_cases hl : p.width ≤ (unread s).length
    · rw [if_pos hl, if_pos hl]; simp only [decodeAt_full _ _ (hfull _ hl)]
    · rw [if_neg hl, if_neg hl]

end Sys2Proof.Machine
end

