-- ==== Sys2Proof/Laws/Loop.lean ====
section
/-! SUPPORT. The laws of the read loop: what each shared operation of a READ does to the invariant, to the results and to
the destination, said once. -/

namespace Sys2Proof.Machine

/-- A state at the top of the read loop (44_drain_and_host.md R192), in which this READ has delivered nothing. -/
structure Ready (s : State) : Prop where
  posLe : s.pos ≤ s.input.length
  scurLe : s.scur ≤ 15
  frame : FrameOk s
  opened : s.mode = .opened
  src : s.srcClosed = false
  st : s.st = frameStateOf .idle s.desc
  delivered : s.work.delivered = 0
  window : s.work.dOff + s.work.remaining ≤ s.dst.size
  dstWf : Buffer.wf s.dst
  cmdsWf : ∀ c ∈ s.cmds, Buffer.wf c.dst

/-- What every part of a READ keeps. -/
structure Kept (s t : State) : Prop where
  input : t.input = s.input
  cmds : t.cmds = s.cmds
  verifyBlock : t.verifyBlock = s.verifyBlock
  verifyContent : t.verifyContent = s.verifyContent
  draws : t.draws = s.draws

theorem Kept.refl (s : State) : Kept s s := ⟨rfl, rfl, rfl, rfl, rfl⟩
theorem Kept.trans {a b c : State} (h : Kept a b) (k : Kept b c) : Kept a c :=
  ⟨k.1.trans h.1, k.2.trans h.2, k.3.trans h.3, k.4.trans h.4, k.5.trans h.5⟩

/-- What the part of a command from s on needs of a state before it. -/
structure Before (s s1 : State) : Prop where
  results : s1.results = s.results
  dst : s1.dst = s.dst
  dOff : s1.work.dOff = s.work.dOff
  remaining : s1.work.remaining = s.work.remaining

/-- What a READ that returned n bytes in state t delivered: they are the oldest of the bytes the current frame produced
last, n of the history's tail (44_drain_and_host.md R197, R199, R200). -/
def FromHistory (t : State) (n : Nat) (bytes : List Byte) : Prop :=
  ∃ fd h, t.desc = some fd ∧ t.hist = some h ∧ n ≤ fd.maxBlockSize ∧ t.pending + n ≤ h.length ∧
    bytes = (h.drop (h.length - t.pending - n)).take n

/-- What a READ that ends in t with result r, from a state s in which it had delivered nothing, has done
(44_drain_and_host.md R199, 20_memory.md R64 item 4). -/
def Ends (s t : State) : CmdResult → Prop
  | .ok n bytes =>
    bytes.length = n ∧ n ≤ s.work.remaining ∧ Overwritten s.dst t.dst s.work.dOff bytes ∧
      (n = 0 ↔ s.work.remaining = 0 ∨ (t.desc = none ∧ t.pos = t.input.length)) ∧
      (0 < n → FromHistory t n bytes)
  | .done => False
  | .error _ _ => t.dst = s.dst

/-- What a part of a READ leaves: a state that meets the invariant, in which the READ has ended with one result or goes
on with nothing written. -/
structure Piece (s t : State) : Prop where
  inv : StateInv t
  kept : Kept s t
  res : (t.phase = .idle ∧ ∃ r, t.results = s.results ++ [r] ∧ Ends s t r) ∨ (t.phase ≠ .idle ∧ Before s t)

theorem Overwritten.nil (b : Buffer) (o : Nat) : Overwritten b b o [] :=
  ⟨rfl, fun _ _ => rfl, fun _ h => absurd h (by simp)⟩

theorem Overwritten.writeBytes (b : Buffer) (o : Nat) (bs : List Byte) : Overwritten b (Buffer.writeBytes b o bs) o bs :=
  ⟨rfl, fun _ h => Buffer.read_writeBytes_outside b o bs h, fun _ h => Buffer.read_writeBytes_inside b o bs h⟩

/-- `FrameOk` looks at four fields only. -/
theorem FrameOk.congr {s t : State} (h : FrameOk s) (h1 : t.desc = s.desc) (h2 : t.blk = s.blk) (h3 : t.hist = s.hist)
    (h4 : t.pending = s.pending) : FrameOk t := by
  unfold FrameOk at *; rw [h1, h2, h3, h4]; exact h

/-- The parts of an active frame. -/
theorem FrameOk.some {s : State} (h : FrameOk s) {d : FrameDescriptor} (hd : s.desc = some d) :
    ∃ b hh, s.blk = some b ∧ s.hist = some hh ∧ LegalBlockSize d.maxBlockSize ∧ b.size = d.maxBlockSize ∧ Buffer.wf b ∧
      s.pending ≤ d.maxBlockSize ∧ s.pending ≤ hh.length := by
  unfold FrameOk at h
  split at h
  · simp_all
  · rename_i d' b hh h1 h2 h3
    obtain rfl : d' = d := by simpa [h1] using hd
    exact ⟨b, hh, h2, h3, h⟩
  · exact h.elim

/-- The frame state of the read loop is right wherever a state with the same descriptor waits, but in a trailer. -/
theorem StOk.of_idle {s t : State} (h : s.st = frameStateOf .idle s.desc) (h1 : t.st = s.st) (h2 : t.desc = s.desc)
    (hp : t.phase ≠ .reading .contentChecksum) : StOk t := by
  unfold StOk
  rw [h1, h2, h]
  unfold frameStateOf
  cases s.desc <;> simp

/-- A drain copies exactly `drainCount` bytes (44_drain_and_host.md R200). -/
theorem drainBytes_length {s : State} (h : FrameOk s) : (drainBytes s).length = drainCount s := by
  unfold FrameOk at h
  unfold drainBytes drainCount
  split at h
  · simp_all
  · simp only [List.length_take, List.length_drop, *, Option.getD_some]
    omega
  · exact h.elim

/-! The read loop's four choices (44_drain_and_host.md R193 to R197). -/

theorem loopTop_return {s : State} (h : s.work.remaining = 0) : loopTop s = returnRead [] s := if_pos h

theorem loopTop_header {s : State} (h : s.work.remaining ≠ 0) (hd : s.desc = none) : loopTop s = enterHeader s := by
  unfold loopTop; rw [if_neg h, hd]

theorem loopTop_block {s : State} {d : FrameDescriptor} (h : s.work.remaining ≠ 0) (hd : s.desc = some d)
    (hp : s.pending = 0) : loopTop s = enterBlock s := by
  unfold loopTop; rw [if_neg h, hd]; exact if_pos hp

theorem loopTop_drain {s : State} {d : FrameDescriptor} (h : s.work.remaining ≠ 0) (hd : s.desc = some d)
    (hp : s.pending ≠ 0) : loopTop s = drainAndReturn s := by
  unfold loopTop; rw [if_neg h, hd]; exact if_neg hp

/-- Everything the read loop's choice can do: the READ has ended, or the next record is awaited; no input is consumed. -/
theorem loopTop_piece {s : State} (h : Ready s) : Piece s (loopTop s) ∧ (loopTop s).pos = s.pos := by
  unfold loopTop
  split
  · rename_i hr
    refine ⟨⟨⟨h.posLe, h.scurLe, h.frame, ?_, ?_, trivial, h.dstWf, h.cmdsWf⟩, ⟨rfl, rfl, rfl, rfl, rfl⟩, .inl ⟨rfl, _,
        rfl, ?_⟩⟩, rfl⟩
    · simpa [ModeOk, returnRead, h.opened] using h.src
    · exact .of_idle h.st rfl rfl (by simp [returnRead])
    · exact ⟨h.delivered.symm, by simp [h.delivered], Overwritten.nil _ _, by simp [h.delivered, hr], by simp [h.delivered]⟩
  · rename_i hr
    split
    · rename_i hd
      refine ⟨⟨⟨h.posLe, by simp [enterHeader], h.frame, ?_, ?_, ?_, h.dstWf, h.cmdsWf⟩, ⟨rfl, rfl, rfl, rfl, rfl⟩,
          .inr ⟨by simp [enterHeader], ⟨rfl, rfl, rfl, rfl⟩⟩⟩, rfl⟩
      · simpa [ModeOk, enterHeader, h.opened] using h.src
      · exact .of_idle h.st rfl rfl (by simp [enterHeader])
      · exact ⟨h.opened, Nat.pos_of_ne_zero hr, h.delivered, h.window, hd, rfl⟩
    · rename_i d hd
      unfold loopStep2
      split
      · rename_i hp
        refine ⟨⟨⟨h.posLe, by simp [enterBlock], h.frame, ?_, ?_, ?_, h.dstWf, h.cmdsWf⟩, ⟨rfl, rfl, rfl, rfl, rfl⟩,
            .inr ⟨by simp [enterBlock], ⟨rfl, rfl, rfl, rfl⟩⟩⟩, rfl⟩
        · simpa [ModeOk, enterBlock, h.opened] using h.src
        · exact .of_idle h.st rfl rfl (by simp [enterBlock])
        · exact ⟨h.opened, Nat.pos_of_ne_zero hr, h.delivered, h.window, by simp [enterBlock, hd], hp, rfl⟩
      · rename_i hp
        have hdl := drainBytes_length h.frame
        have hdc : 0 < drainCount s := by unfold drainCount; omega
        have hcl : drainCount s ≤ d.maxBlockSize := by
          obtain ⟨b, hh, _, _, _, _, _, h6, _⟩ := h.frame.some hd
          unfold drainCount; omega
        obtain ⟨b, hh, -, hhist, -, -, -, -, hph⟩ := h.frame.some hd
        refine ⟨⟨⟨h.posLe, h.scurLe, ?_, ?_, ?_, trivial, ?_, h.cmdsWf⟩, ⟨rfl, rfl, rfl, rfl, rfl⟩, .inl ⟨rfl, _, rfl,
            ?_⟩⟩, rfl⟩
        · have := h.frame
          unfold FrameOk at this ⊢
          simp only [drainAndReturn, returnRead, finish_desc, finish_blk, finish_hist, finish_pending, drain_desc,
              drain_blk, drain_hist, drain_pending]
          split at this
          · simp_all
          · rename_i h1 h2 h3
            exact ⟨this.1, this.2.1, this.2.2.1, by omega, by omega⟩
          · exact this.elim
        · simpa [ModeOk, drainAndReturn, returnRead, h.opened] using h.src
        · exact .of_idle h.st rfl rfl (by simp [drainAndReturn, returnRead])
        · apply Buffer.wf_writeBytes h.dstWf
          right
          rw [drainBytes_length h.frame]
          have := h.window
          unfold drainCount
          omega
        · have hdv : (drain s).work.delivered = drainCount s := by simp [h.delivered]
          refine ⟨by rw [hdv, hdl], by rw [hdv]; unfold drainCount; omega, Overwritten.writeBytes _ _ _, ?_, fun _ => ?_⟩
          · rw [hdv]
            refine ⟨fun h0 => by omega, ?_⟩
            rintro (h0 | ⟨h0, -⟩)
            · exact absurd h0 hr
            · have : s.desc = none := h0
              simp [hd] at this
          · rw [hdv]
            refine ⟨d, hh, hd, hhist, hcl, ?_, ?_⟩ <;> simp only [drainAndReturn, returnRead, finish_pending, drain_pending]
            · unfold drainCount; omega
            · rw [show hh.length - (s.pending - drainCount s) - drainCount s = hh.length - s.pending by
                unfold drainCount; omega]
              simp [drainBytes, hhist]

/-- A fatal error ends the READ with nothing written. -/
theorem raise_fatal_piece {s : State} {e : BlockError} (he : e.fatal = true) (posLe : s.pos ≤ s.input.length)
    (scurLe : s.scur ≤ 15) (frame : FrameOk s) (src : s.srcClosed = false)
    (st : s.st = .awaitingFrame ↔ s.desc = none) (dstWf : Buffer.wf s.dst)
    (cmdsWf : ∀ c ∈ s.cmds, Buffer.wf c.dst) : Piece s (raise e s) := by
  refine ⟨⟨by simpa using posLe, by simpa using scurLe, by simpa [FrameOk] using frame, ?_, ?_, ?_, by simpa using dstWf,
    by simpa using cmdsWf⟩, ⟨by simp, by simp, by simp, by simp, by simp⟩, .inl ⟨by simp, _, raise_results e s, by simp [Ends]⟩⟩
  · simp only [ModeOk, raise_mode, he, if_true, raise_srcClosed, src, raise_err, true_and]
    cases e <;> simp_all [BlockError.fatal, BlockError.code] <;> decide
  · exact ⟨by simpa using st, fun h => by simp [he] at h⟩
  · simp [PhaseOk]

/-- A READ that ended, looked at from an earlier state. -/
theorem Ends.back {s s1 t : State} {r : CmdResult} (hb : Before s s1) (h : Ends s1 t r) : Ends s t r := by
  obtain ⟨-, h2, h3, h4⟩ := hb
  unfold Ends at h ⊢
  rwa [h2, h3, h4] at h

/-- A part of a READ from s1 is one from s, when s1 differs from s in nothing a part looks back to. -/
theorem Piece.back {s s1 t : State} (h : Piece s1 t) (hk : Kept s s1) (hb : Before s s1) : Piece s t := by
  refine ⟨h.inv, hk.trans h.kept, ?_⟩
  rcases h.res with ⟨h1, r, h2, h3⟩ | ⟨h1, h2⟩
  · exact .inl ⟨h1, r, by rw [h2, hb.results], h3.back hb⟩
  · exact .inr ⟨h1, h2.1.trans hb.1, h2.2.trans hb.2, h2.3.trans hb.3, h2.4.trans hb.4⟩

/-- What holds inside a READ, whatever the position. -/
structure Mid (s : State) : Prop where
  st : s.st = .awaitingFrame ↔ s.desc = none
  posLe : s.pos ≤ s.input.length
  scurLe : s.scur ≤ 15
  frame : FrameOk s
  opened : s.mode = .opened
  src : s.srcClosed = false
  remaining : 0 < s.work.remaining
  delivered : s.work.delivered = 0
  window : s.work.dOff + s.work.remaining ≤ s.dst.size
  dstWf : Buffer.wf s.dst
  cmdsWf : ∀ c ∈ s.cmds, Buffer.wf c.dst

/-- What the invariant says inside a READ. -/
theorem Mid.of_inv {s : State} {p : Position} (h : StateInv s) (hp : s.phase = .reading p) : Mid s ∧ PositionOk p s ∧
    s.st = frameStateOf (.reading p) s.desc := by
  have := h.phaseOk
  unfold PhaseOk at this
  rw [hp] at this
  obtain ⟨h1, h2, h3, h4, h5⟩ := this
  have hm := h.modeOk
  unfold ModeOk at hm
  rw [h1] at hm
  exact ⟨⟨h.stOk.1, h.posLe, h.scurLe, h.frame, h1, hm, h2, h3, h4, h.dstWf, h.cmdsWf⟩, h5, hp ▸ h.stOk.2 (by simp [h1])⟩

theorem Mid.raise {s : State} {e : BlockError} (he : e.fatal = true) (h : Mid s) : Piece s (raise e s) :=
  raise_fatal_piece he h.posLe h.scurLe h.frame h.src h.st h.dstWf h.cmdsWf

/-- Awaiting the next record writes nothing. -/
theorem expect_piece {s : State} {p : Position} (h : Mid s) (hst : s.st = frameStateOf (.reading p) s.desc)
    (hp : PositionOk p (expect p s)) : Piece s (expect p s) := by
  refine ⟨⟨h.posLe, h.scurLe, h.frame, ?_, ?_, ?_, h.dstWf, h.cmdsWf⟩, ⟨rfl, rfl, rfl, rfl, rfl⟩, .inr ⟨by simp, ⟨rfl, rfl,
      rfl, rfl⟩⟩⟩
  · simpa [ModeOk, h.opened] using h.src
  · exact ⟨h.st, fun _ => hst⟩
  · exact ⟨h.opened, h.remaining, h.delivered, h.window, hp⟩

theorem Mid.ready {s : State} (h : Mid s) (hst : s.st = frameStateOf .idle s.desc) : Ready s :=
  ⟨h.posLe, h.scurLe, h.frame, h.opened, h.src, hst, h.delivered, h.window, h.dstWf, h.cmdsWf⟩

/-- Consuming a record's bytes keeps what holds inside a READ. -/
theorem Mid.consumed {s : State} (h : Mid s) {bs : List Byte} (h1 : s.pos + bs.length ≤ s.input.length)
    (h2 : s.scur + bs.length ≤ 15) : Mid (consumed bs s) := by
  refine ⟨by simpa using h.st, by simpa using h1, by simpa using h2, h.frame.congr (by simp) (by simp) (by simp) (by simp),
    by simpa using h.opened, by simpa using h.src, by simpa using h.remaining, by simpa using h.delivered,
    by simpa using h.window, by simpa using h.dstWf, by simpa using h.cmdsWf⟩

/-- A change of the working registers other than the counters. -/
theorem Mid.work {s : State} (h : Mid s) (f : Work → Work) (h1 : (f s.work).remaining = s.work.remaining)
    (h2 : (f s.work).delivered = s.work.delivered)
    (h3 : (f s.work).dOff = s.work.dOff) : Mid (onWork f s) :=
  ⟨h.st, h.posLe, h.scurLe, h.frame, h.opened, h.src, by simpa [h1] using h.remaining, by simpa [h2] using h.delivered,
   by simpa [h1, h3] using h.window, h.dstWf, h.cmdsWf⟩

theorem expectHc_piece {s : State} (h : Mid s) (hd : s.desc = none) (hst : s.st = .awaitingFrame)
    (hc : s.scur = 2 ∨ s.scur = 6 ∨ s.scur = 10 ∨ s.scur = 14) : Piece s (expectHc s) := by
  have hm := h.work (fun w => { w with hcCalc := headerChecksum (scratchBytes s) }) rfl rfl rfl
  have := expect_piece (p := .hc) hm (by simp [hst, hd, frameStateOf]) ⟨hd, hc, rfl⟩
  exact this.back ⟨rfl, rfl, rfl, rfl, rfl⟩ ⟨rfl, rfl, rfl, rfl⟩

theorem expectDictOrHc_piece {s : State} (h : Mid s) (hd : s.desc = none) (hst : s.st = .awaitingFrame)
    (hc : s.scur = 2 ∨ s.scur = 10) : Piece s (expectDictOrHc s) := by
  unfold expectDictOrHc
  split
  · exact expect_piece h (by simp [hst, hd, frameStateOf]) ⟨hd, hc⟩
  · exact expectHc_piece h hd hst (by omega)

/-- The block-size table gives legal sizes only (41_header_parser.md R110). -/
theorem legal_blockSize (c : BitVec 3) : LegalBlockSize (blockSize c) := by
  unfold blockSize LegalBlockSize; split <;> [simp; (split <;> [simp; (split <;> simp)])]

theorem startFrame_ready {s : State} (h : Mid s) (d : FrameDescriptor) (hd : LegalBlockSize d.maxBlockSize)
    : Ready (startFrame d s) := by
  refine ⟨h.posLe, h.scurLe, ?_, h.opened, h.src, rfl, h.delivered, h.window, h.dstWf, h.cmdsWf⟩
  exact ⟨hd, rfl, Buffer.wf_fresh _, Nat.zero_le _, Nat.zero_le _⟩

theorem teardown_ready {s : State} (h : Mid s) : Ready (teardown s) :=
  ⟨h.posLe, h.scurLe, rfl, h.opened, h.src, rfl, h.delivered, h.window, h.dstWf, h.cmdsWf⟩

/-- The end of a frame, and what the loop does next. -/
theorem endFrame_piece {s : State} (h : Mid s) : Piece s (endFrame s) ∧ (endFrame s).pos = s.pos := by
  obtain ⟨h1, h2⟩ := loopTop_piece (teardown_ready h)
  exact ⟨h1.back ⟨rfl, rfl, rfl, rfl, rfl⟩ ⟨rfl, rfl, rfl, rfl⟩, h2⟩

/-- Step 2 of the loop is the loop itself while bytes are wanted and a frame is active. -/
theorem loopStep2_eq {s : State} (h : 0 < s.work.remaining) {d} (hd : s.desc = some d) : loopStep2 s = loopTop s := by
  unfold loopTop; rw [if_neg (by omega), hd]

/-- The end of a block, and what the loop does next. -/
theorem afterDispatch_piece {s : State} (h : Mid s) {d : FrameDescriptor} (hd : s.desc = some d) {out : List Byte}
    (hl : out.length ≤ d.maxBlockSize) :
    Piece s (afterDispatch out s) ∧ (afterDispatch out s).pos = s.pos := by
  unfold afterDispatch
  have : Ready (appendHistory out s) := by
    refine ⟨h.posLe, h.scurLe, ?_, h.opened, h.src, ?_, h.delivered, h.window, h.dstWf, h.cmdsWf⟩
    · have := h.frame
      unfold FrameOk at this ⊢
      split at this
      · simp_all
      · rename_i d' b hh h1 h2 h3
        obtain rfl : d' = d := by simpa [h1] using hd
        simp only [appendHistory_desc, appendHistory_blk, appendHistory_hist, appendHistory_pending, h1, h2]
        exact ⟨this.1, this.2.1, this.2.2.1, hl, by simp⟩
      · exact this.elim
    · simp [frameStateOf, hd]
  obtain ⟨h1, h2⟩ := loopTop_piece this
  exact ⟨h1.back ⟨rfl, rfl, rfl, rfl, rfl⟩ ⟨rfl, rfl, rfl, rfl⟩, h2⟩

/-- Dispatch of a payload that fits the frame's block size, whatever the codec answers. -/
theorem dispatchPayload_piece {s : State} (h : Mid s) {d : FrameDescriptor} (hd : s.desc = some d) {payload : List Byte}
    (hl : payload.length ≤ d.maxBlockSize) :
    Piece s (dispatchPayload d payload s) ∧ (dispatchPayload d payload s).pos = s.pos := by
  unfold dispatchPayload
  split
  · have hm : Mid (setSt .haveRawBlock s) := ⟨by simp [hd], h.posLe, h.scurLe, h.frame, h.opened, h.src, h.remaining,
        h.delivered, h.window, h.dstWf, h.cmdsWf⟩
    obtain ⟨h1, h2⟩ := afterDispatch_piece hm hd hl
    exact ⟨h1.back ⟨rfl, rfl, rfl, rfl, rfl⟩ ⟨rfl, rfl, rfl, rfl⟩, h2⟩
  · have hm : Mid (setSt .haveCompressedBlock s) := ⟨by simp [hd], h.posLe, h.scurLe, h.frame, h.opened, h.src,
        h.remaining, h.delivered, h.window, h.dstWf, h.cmdsWf⟩
    unfold decodeBlock
    split
    · exact ⟨(hm.raise rfl).back ⟨rfl, rfl, rfl, rfl, rfl⟩ ⟨rfl, rfl, rfl, rfl⟩, by simp⟩
    · split
      · exact ⟨(hm.raise rfl).back ⟨rfl, rfl, rfl, rfl, rfl⟩ ⟨rfl, rfl, rfl, rfl⟩, by simp⟩
      · rename_i out _ hle
        obtain ⟨h1, h2⟩ := afterDispatch_piece (out := out) hm hd (by omega)
        exact ⟨h1.back ⟨rfl, rfl, rfl, rfl, rfl⟩ ⟨rfl, rfl, rfl, rfl⟩, h2⟩

/-- So does consuming a payload that fits. -/
theorem loaded_mid {s : State} (h : Mid s) {d : FrameDescriptor} (hd : s.desc = some d) (bs : List Byte)
    (hl : bs.length ≤ d.maxBlockSize) (hp : s.pos + bs.length ≤ s.input.length) : Mid (loaded 0 bs s) := by
  rw [loaded_eq]
  refine ⟨h.st, hp, h.scurLe, ?_, h.opened, h.src, h.remaining, h.delivered, h.window, h.dstWf, h.cmdsWf⟩
  obtain ⟨b, hh, h1, h2, h3, h4, h5, h6, h7⟩ := h.frame.some hd
  unfold FrameOk
  simp only [hd, h1, h2, Option.map_some]
  exact ⟨h3, by simpa using h4, Buffer.wf_writeBytes h5 (.inr (by omega)), h6, h7⟩

/-- What running a record answers: a next state, one part further. -/
def Good (s : State) (o : Host.Outcome State Fault Refusal) : Prop := ∃ t, o = .next t ∧ Piece s t ∧ s.pos ≤ t.pos

theorem dispatch_good {s : State} (h : Mid s) {d : FrameDescriptor} {b : Buffer} (hd : s.desc = some d) {payload : List Byte}
    (hr : Buffer.readBytes b 0 s.work.blkLen.toNat = some payload) (hl : payload.length ≤ d.maxBlockSize)
        : Good s (dispatch d b s) := by
  unfold dispatch
  rw [hr]
  simp only
  rw [if_neg (by have := h.window; omega)]
  obtain ⟨h1, h2⟩ := dispatchPayload_piece h hd hl
  exact ⟨_, rfl, h1, by omega⟩

theorem Good.of_kept {s s1 : State} {o} (hk : Kept s s1) (hr : Before s s1) (hp : s.pos ≤ s1.pos) (h : Good s1 o)
    : Good s o := by
  obtain ⟨t, h1, h2, h3⟩ := h
  exact ⟨t, h1, h2.back hk hr, by omega⟩

/-- Everything a data block can do: a next state, with the invariant, never going back in the input. -/
theorem dataBlock_good {s : State} (h : Mid s) (raw : Bool) (len : Word31) {d : FrameDescriptor} (hd : s.desc = some d)
    (hsc : s.scur = 4) (hpend : s.pending = 0) (hst : s.st = .awaitingBlock) :
    Good s (dataBlock raw len s) := by
  obtain ⟨b, hh, h1, h2, h3, h4, h5, h6, h7⟩ := h.frame.some hd
  unfold dataBlock
  simp only [hd, h1]
  have hm : Mid (latchBlockWord raw len s) := h.work _ rfl rfl rfl
  have hk : Kept s (latchBlockWord raw len s) := ⟨rfl, rfl, rfl, rfl, rfl⟩
  split
  · exact ⟨_, rfl, (hm.raise rfl).back hk ⟨rfl, rfl, rfl, rfl⟩, by simp⟩
  · rename_i hle
    rw [if_neg (by omega), readPayload_eq]
    have hu : unread (latchBlockWord raw len s) = unread s := rfl
    have hlen := length_unread s
    have hpl := h.posLe
    rw [hu]
    have hkl : ∀ bs, Kept s (loaded 0 bs (latchBlockWord raw len s)) := fun bs => by rw [loaded_eq]; exact ⟨rfl, rfl, rfl,
        rfl, rfl⟩
    have hrl : ∀ bs, Before s (loaded 0 bs (latchBlockWord raw len s)) := fun bs => by rw [loaded_eq]; exact ⟨rfl, rfl,
        rfl, rfl⟩
    have hppl : ∀ bs, s.pos ≤ (loaded 0 bs (latchBlockWord raw len s)).pos := fun bs => by rw [loaded_eq]; simp
    by_cases hn : len.toNat ≤ (unread s).length
    · rw [if_pos hn]
      simp only
      have htl : ((unread s).take len.toNat).length = len.toNat := by rw [List.length_take]; omega
      have hm2 := loaded_mid hm (d := d) hd ((unread s).take len.toNat) (by omega) (by simp; omega)
      refine Good.of_kept (hkl ((unread s).take len.toNat)) (hrl _) (hppl _) ?_
      unfold afterPayload
      have hd2 : (loaded 0 ((unread s).take len.toNat) (latchBlockWord raw len s)).desc = some d := by rw [loaded_eq]; exact hd
      have hb2 : (loaded 0 ((unread s).take len.toNat) (latchBlockWord raw len s)).blk = some (Buffer.writeBytes b 0 ((unread s).take len.toNat)) := by rw [loaded_eq]; simp [h1]
      have hw2 : (loaded 0 ((unread s).take len.toNat) (latchBlockWord raw len s)).work.blkLen = len := by rw [loaded_eq]; rfl
      have hrd := Buffer.readBytes_writeBytes b 0 ((unread s).take len.toNat)
      rw [htl] at hrd
      simp only [hd2, hb2]
      split
      · rename_i hbc
        refine ⟨_, rfl, ?_, Nat.le_refl _⟩
        apply expect_piece hm2
        · rw [hd2]; rw [loaded_eq]; simp [frameStateOf, hst]
        · refine ⟨?_, ?_, d, _, (unread s).take len.toNat, hd2, hb2, hbc, ?_, ?_⟩
          · simp only [expect_pending]; rw [loaded_eq]; simpa using hpend
          · simp only [expect_scur]; rw [loaded_eq]; simpa using hsc
          · simp only [expect_work, hw2]; omega
          · simp only [expect_work, hw2]; exact hrd
      · exact dispatch_good hm2 hd2 (by rw [hw2]; exact hrd) (by omega)
    · rw [if_neg hn]
      simp only
      have hm2 := loaded_mid hm (d := d) hd (unread s) (by omega) (by simp; omega)
      exact ⟨_, rfl, (hm2.raise rfl).back (hkl _) (hrl _), by simpa using hppl _⟩

end Sys2Proof.Machine
end

