-- ==== Sys2Proof/Laws/PerInstr.lean ====
section
/-! SUPPORT. The statements made once per instruction, and one lemma per constructor. -/

namespace Sys2Proof.Laws.WireWidth

/-- An encoded record has exactly the bytes its position is wide, and the end of the stream has none (20_memory.md R59). -/
def Statement (i : Instr) : Prop :=
  ∀ p bs, encode i = .wire p bs → bs.length = if i = .endOfStream then 0 else p.width

theorem magic : Statement .magic := by
  intro p bs h
  cases h; simp [Position.width]

theorem badMagic (v : Word32) : Statement (.badMagic v) := by
  intro p bs h
  cases h; simp [Position.width]

theorem endOfStream : Statement .endOfStream := by
  intro p bs h
  cases h; simp

theorem flgBd (v : Word16) : Statement (.flgBd v) := by
  intro p bs h
  cases h; simp [Position.width]

theorem csize (v : Word64) : Statement (.csize v) := by
  intro p bs h
  cases h; simp [Position.width]

theorem dictId (v : Word32) : Statement (.dictId v) := by
  intro p bs h
  cases h; simp [Position.width]

theorem hc (v : Byte) : Statement (.hc v) := by
  intro p bs h
  cases h; simp [Position.width]

theorem blockEnd : Statement .blockEnd := by
  intro p bs h
  cases h; simp [Position.width]

theorem blockRawEmpty : Statement .blockRawEmpty := by
  intro p bs h
  cases h; simp [Position.width]

theorem blockRaw (n : Word31) : Statement (.blockRaw n) := by
  intro p bs h
  cases h; simp [Position.width]

theorem blockCmp (n : Word31) : Statement (.blockCmp n) := by
  intro p bs h
  cases h; simp [Position.width]

theorem blockChecksum (v : Word32) : Statement (.blockChecksum v) := by
  intro p bs h
  cases h; simp [Position.width]

theorem contentChecksum (v : Word32) : Statement (.contentChecksum v) := by
  intro p bs h
  cases h; simp [Position.width]

theorem read (d : Buffer) (o : Nat) (m : Int) : Statement (.read d o m) := by
  intro p bs h
  cases h

theorem readAsync (d : Buffer) (o : Nat) (m : Int) (c : Bool) : Statement (.readAsync d o m c) := by
  intro p bs h
  cases h

theorem close : Statement .close := by
  intro p bs h
  cases h

theorem seek : Statement .seek := by
  intro p bs h
  cases h

theorem write : Statement .write := by
  intro p bs h
  cases h

theorem setLength : Statement .setLength := by
  intro p bs h
  cases h

theorem unassigned6 : Statement .unassigned6 := by
  intro p bs h
  cases h

theorem unassigned7 : Statement .unassigned7 := by
  intro p bs h
  cases h

end Sys2Proof.Laws.WireWidth
end

