-- ==== Sys2Proof/Tests/Slice0.lean ====
section
/-! SUPPORT. The model's own tests: the well-formedness smoke, the decoding of words written out from the spec, one or two
steps per instruction, and a witness for the hypotheses of every statement. Expected values are the spec's: each test
names its source. -/

namespace Sys2Proof.Tests

open Sys2Proof.Machine Sys2Proof.Claims

/-! ## Well-formedness: one ill-formed term for each check -/

theorem test_wf_magic_value_is_no_bad_magic : (Instr.badMagic 0x184D2204#32).wf = false := by decide
theorem test_wf_raw_of_length_0 : (Instr.blockRaw 0#31).wf = false := by decide
theorem test_wf_compressed_of_length_0 : (Instr.blockCmp 0#31).wf = false := by decide
theorem test_wf_read_into_falling_addresses :
    (Instr.read { size := 4, cells := [(1, 0#8), (0, 0#8)] } 0 1).wf = false := by decide
theorem test_wf_read_async_into_cells_outside :
    (Instr.readAsync { size := 4, cells := [(4, 0#8)] } 0 1 false).wf = false := by decide
theorem test_wf_accepts :
    (Instr.badMagic 0x194D2204#32).wf = true ∧ (Instr.blockRaw 5#31).wf = true ∧ (Instr.blockCmp 16#31).wf = true ∧
      (Instr.read { size := 4, cells := [(0, 7#8), (3, 1#8)] } 0 4).wf = true := by decide

/-! ## Decoding: words written out from 30_encoding.md and the examples of the rules -/

/-- R72: the bytes 04 22 4D 18 are the magic. -/
theorem test_decode_magic : decode (.wire .magic [0x04#8, 0x22#8, 0x4D#8, 0x18#8]) = .ok .magic := by decide
/-- R102's example: 04 22 4D 19. -/
theorem test_decode_bad_magic :
    decode (.wire .magic [0x04#8, 0x22#8, 0x4D#8, 0x19#8]) = .ok (.badMagic 0x194D2204#32) := by decide
theorem test_decode_end_of_stream : decode (.wire .magic []) = .ok .endOfStream := by decide
/-- R104's example: 64 40. -/
theorem test_decode_flg_bd : decode (.wire .flgBd [0x64#8, 0x40#8]) = .ok (.flgBd 0x4064#16) := by decide
/-- R106's example: 05 and seven zeros. -/
theorem test_decode_csize :
    decode (.wire .csize [0x05#8, 0x00#8, 0x00#8, 0x00#8, 0x00#8, 0x00#8, 0x00#8, 0x00#8]) = .ok (.csize 5#64) := by
  decide
/-- R107's example: 44 33 22 11. -/
theorem test_decode_dict_id :
    decode (.wire .dictId [0x44#8, 0x33#8, 0x22#8, 0x11#8]) = .ok (.dictId 0x11223344#32) := by decide
theorem test_decode_hc : decode (.wire .hc [0xA7#8]) = .ok (.hc 0xA7#8) := by decide
/-- R153's example: 00 00 00 00. -/
theorem test_decode_block_end : decode (.wire .blockWord [0x00#8, 0x00#8, 0x00#8, 0x00#8]) = .ok .blockEnd := by decide
/-- R156's example: 00 00 00 80. -/
theorem test_decode_block_raw_empty :
    decode (.wire .blockWord [0x00#8, 0x00#8, 0x00#8, 0x80#8]) = .ok .blockRawEmpty := by decide
/-- R151's example: 05 00 00 80. -/
theorem test_decode_block_raw :
    decode (.wire .blockWord [0x05#8, 0x00#8, 0x00#8, 0x80#8]) = .ok (.blockRaw 5#31) := by decide
/-- R152's example: 0x00000010. -/
theorem test_decode_block_cmp :
    decode (.wire .blockWord [0x10#8, 0x00#8, 0x00#8, 0x00#8]) = .ok (.blockCmp 16#31) := by decide
/-- R152's bound: the length 0x7FFFFFFF, compressed and raw. -/
theorem test_decode_longest_blocks :
    decode (.wire .blockWord [0xFF#8, 0xFF#8, 0xFF#8, 0x7F#8]) = .ok (.blockCmp 0x7FFFFFFF#31) ∧
      decode (.wire .blockWord [0xFF#8, 0xFF#8, 0xFF#8, 0xFF#8]) = .ok (.blockRaw 0x7FFFFFFF#31) := by decide
/-- R159's example: F9 77 00 FB. -/
theorem test_decode_block_checksum :
    decode (.wire .blockChecksum [0xF9#8, 0x77#8, 0x00#8, 0xFB#8]) = .ok (.blockChecksum 0xFB0077F9#32) := by decide
/-- R154's example: 05 5D CC 02. -/
theorem test_decode_content_checksum :
    decode (.wire .contentChecksum [0x05#8, 0x5D#8, 0xCC#8, 0x02#8]) = .ok (.contentChecksum 0x02CC5D05#32) := by decide
/-- R85: the eight command codes. -/
theorem test_decode_commands :
    decode (.port { code := 0#3, dst := Buffer.fresh 4, off := 1, maxLength := 2, cancel := true }) =
        .ok (.read (Buffer.fresh 4) 1 2) ∧
      decode (.port { code := 1#3, dst := Buffer.fresh 4, off := 1, maxLength := 2, cancel := true }) =
        .ok (.readAsync (Buffer.fresh 4) 1 2 true) ∧
      decode (.port (bareCommand 2#3)) = .ok .close ∧ decode (.port (bareCommand 3#3)) = .ok .seek ∧
      decode (.port (bareCommand 4#3)) = .ok .write ∧ decode (.port (bareCommand 5#3)) = .ok .setLength ∧
      decode (.port (bareCommand 6#3)) = .ok .unassigned6 ∧ decode (.port (bareCommand 7#3)) = .ok .unassigned7 := by
  decide
/-- R131, R132: three bytes of a magic, and none of a block word, are truncations. -/
theorem test_decode_rejects_short :
    decode (.wire .magic [0x04#8, 0x22#8, 0x4D#8]) = .error (.truncated .magic 3 4) ∧
      decode (.wire .blockWord []) = .error (.truncated .blockWord 0 4) := by decide
theorem test_decode_rejects_trailing :
    decode (.wire .hc [0xA7#8, 0x00#8]) = .error (.trailingBytes .hc 1) := by decide

/-! ## Small states -/

/-- What one field of the next state is. -/
def after {α : Type} (o : Host.Outcome State Fault Refusal) (f : State → α) : Option α :=
  match o with
  | .next t => some (f t)
  | .fault _ => none
  | .refused _ => none

/-- A READ of 8 bytes in progress at position p, over an input whose next bytes are given. -/
def reading (p : Position) (bytes : List Byte) : State :=
  { State.reset with
    input := bytes, phase := .reading p, dst := Buffer.fresh 8, work := { Work.reset with remaining := 8 } }

/-- The same inside a frame of the given FLG_BD, with history h. -/
def inFrame (flgBd : Word16) (p : Position) (h bytes : List Byte) : State :=
  { startFrame (descriptorOf flgBd 0#32) (reading p bytes) with hist := some h }

/-- Between commands, in a frame with history h and its last n bytes pending. -/
def waiting (h : List Byte) (n : Nat) : State :=
  { inFrame 0x4060#16 .blockWord h [] with phase := .idle, pending := n, dst := Buffer.fresh 0, work := Work.reset }

/-- "hello". -/
abbrev hello : List Byte := [0x68#8, 0x65#8, 0x6C#8, 0x6C#8, 0x6F#8]

/-- Between commands, two of five bytes pending. -/
theorem waiting_inv : StateInv (waiting hello 2) := by
  refine ⟨by decide, by decide, ?_, rfl, ⟨by decide, fun _ => rfl⟩, trivial, by decide, by simp [waiting, inFrame, reading,
      State.reset, startFrame]⟩
  exact ⟨.inl rfl, rfl, ⟨.nil, by simp [Buffer.fresh]⟩, by decide, by decide⟩

/-- A READ about to read a magic. -/
theorem reading_inv (bytes : List Byte) : StateInv (reading .magic bytes) := by
  refine ⟨Nat.zero_le _, ?_, rfl, rfl, ⟨by simp [reading, State.reset], fun _ => rfl⟩, ⟨rfl, ?_, rfl, ?_, rfl, rfl⟩, ⟨.nil,
      ?_⟩, ?_⟩ <;>
    simp [reading, State.reset, Work.reset, Buffer.fresh]

/-! ## One step per instruction -/

/-- R103: after the magic the scratch is reset and FLG_BD follows. -/
theorem test_magic : after (step (reading .magic [0x04#8, 0x22#8, 0x4D#8, 0x18#8, 0x64#8]))
    (fun t => (t.pos, t.scur, t.phase)) = some (4, 0, .reading .flgBd) := by decide
/-- R102's example. -/
theorem test_bad_magic : after (step (reading .magic [0x04#8, 0x22#8, 0x4D#8, 0x19#8])) (fun t => (t.pos, t.mode, t.results)) =
    some (4, .failed, [.error 1#4 (.malformedFrame 0x194D2204#32)]) := by decide
/-- R101's third example: 04 22, then the end. -/
theorem test_truncated_magic : after (step (reading .magic [0x04#8, 0x22#8])) (fun t => (t.pos, t.results)) =
    some (2, [.error 3#4 (.truncatedStream (.fixed .magic) 2 4)]) := by decide
/-- R101's second example: the empty input. -/
theorem test_end_of_stream : after (step (reading .magic [])) (fun t => (t.pos, t.mode, t.results)) =
    some (0, .opened, [.ok 0 []]) := by decide
/-- R106: BD = 0x48 has a content size; R71: it comes before the dictionary ID. -/
theorem test_flg_bd_content_size : after (exec (.flgBd 0x4960#16) (reading .flgBd [])) (fun t => t.phase) =
    some (.reading .csize) := by decide
/-- R107: BD = 0x41 has a dictionary ID. -/
theorem test_flg_bd_dictionary : after (exec (.flgBd 0x4160#16) (reading .flgBd [])) (fun t => t.phase) =
    some (.reading .dictId) := by decide
/-- R106's example: the value changes nothing else. -/
theorem test_csize : after (exec (.csize 5#64) (reading .csize [])) (fun t => (t.phase, t.desc, t.work.csize)) =
    some (.reading .hc, none, 5#64) := by decide
/-- R107's example. -/
theorem test_dict_id : after (exec (.dictId 0x11223344#32) (reading .dictId [])) (fun t => (t.phase, t.work.dictReg)) =
    some (.reading .hc, 0x11223344#32) := by decide
/-- R109, R111: FLG = 0x64, BD = 0x41, dictionary 0 is present. -/
theorem test_hc : after (exec (.hc 0xA7#8)
      { reading .hc [] with work := { Work.reset with remaining := 8, hcCalc := 0xA7#8, flgBd := 0x4164#16 } })
    (fun t => (t.desc, t.st, t.phase)) =
    some (some { contentChecksumEnabled := true, blockChainingEnabled := false, blockChecksumEnabled := false,
                 dictionaryId := some 0#32, maxBlockSize := 65536 }, .awaitingBlock, .reading .blockWord) := by decide
/-- R109: another byte. -/
theorem test_hc_mismatch : after (exec (.hc 0xA6#8) { reading .hc [] with work := { Work.reset with hcCalc := 0xA7#8 } })
    (fun t => (t.desc, t.mode, t.results)) =
    some (none, .failed, [.error 2#4 (.headerChecksumMismatch 0xA7#8 0xA6#8)]) := by decide
/-- R155: no content checksum, so the frame is over and the next magic is read. -/
theorem test_block_end : after (step (inFrame 0x4060#16 .blockWord hello [0#8, 0#8, 0#8, 0#8]))
    (fun t => (t.desc, t.hist, t.st, t.phase)) = some (none, none, .awaitingFrame, .reading .magic) := by decide
/-- R154: a content checksum is read first. -/
theorem test_block_end_trailer : after (exec .blockEnd (inFrame 0x4064#16 .blockWord [] [])) (fun t => (t.st, t.phase)) =
    some (.frameTerminated, .reading .contentChecksum) := by decide
/-- R156: nothing is produced and the frame stays active. -/
theorem test_block_raw_empty : after (step (inFrame 0x4060#16 .blockWord hello [0#8, 0#8, 0#8, 0x80#8]))
    (fun t => (t.hist, t.desc.isSome, t.phase)) = some (some hello, true, .reading .blockWord) := by decide
/-- R158, R160, R162: the raw block "hello" is delivered whole to a READ of 8. -/
theorem test_block_raw : after (step (inFrame 0x4060#16 .blockWord [] ([5#8, 0#8, 0#8, 0x80#8] ++ hello)))
    (fun t => (t.pos, t.pending, t.results)) = some (9, 0, [.ok 5 hello]) := by decide
/-- R157's example: 65537 in a frame of 65536, with `pos` just after the word. -/
theorem test_block_raw_too_large : after (step (inFrame 0x4060#16 .blockWord [] [0x01#8, 0#8, 0x01#8, 0x80#8, 0#8]))
    (fun t => (t.pos, t.results)) = some (4, [.error 5#4 (.blockTooLarge 65537 65536)]) := by decide
/-- R158, R159: with FLG[4] = 1 the payload is buffered and the checksum is read next. -/
theorem test_block_cmp : after (step (inFrame 0x4070#16 .blockWord [] ([5#8, 0#8, 0#8, 0#8] ++ hello)))
    (fun t => (t.pos, t.phase, t.blk.bind (Buffer.readBytes · 0 5))) =
    some (9, .reading .blockChecksum, some hello) := by decide
/-- R165: two of five payload bytes. -/
theorem test_block_cmp_truncated : after (step (inFrame 0x4060#16 .blockWord [] [5#8, 0#8, 0#8, 0#8, 1#8, 2#8]))
    (fun t => (t.pos, t.hist, t.results)) =
    some (6, some [], [.error 3#4 (.truncatedStream .payload 2 5)]) := by decide
/-- R159: with the option off any four bytes are accepted. -/
theorem test_block_checksum : after (exec (.blockChecksum 0#32)
      { inFrame 0x4070#16 .blockChecksum [] [] with
        blk := some (Buffer.writeBytes (Buffer.fresh 65536) 0 hello)
        work := { Work.reset with remaining := 3, blkRaw := true, blkLen := 5#31 } })
    (fun t => (t.pending, t.results)) = some (2, [.ok 3 [0x68#8, 0x65#8, 0x6C#8]]) := by decide
/-- R154, R155: with the option off any four bytes are accepted, and the frame is torn down. -/
theorem test_content_checksum : after (exec (.contentChecksum 0#32) (inFrame 0x4064#16 .contentChecksum hello []))
    (fun t => (t.desc, t.st, t.phase)) = some (none, .awaitingFrame, .reading .magic) := by decide
/-- R200's example: the last two bytes of "hello" are "lo". -/
theorem test_read : after (exec (.read (Buffer.fresh 10) 0 10) (waiting hello 2))
    (fun t => (t.pending, t.results, t.dst.cells)) =
    some (0, [.ok 2 [0x6C#8, 0x6F#8]], [(0, 0x6C#8), (1, 0x6F#8)]) := by decide
/-- R191's example: 4 bytes, off 2, maxLength 3. -/
theorem test_read_arguments : after (exec (.read (Buffer.fresh 4) 2 3) (waiting hello 2)) (fun t => (t.mode, t.pending,
    t.results)) =
    some (.opened, 2, [.error 7#4 (.invalidArgument 2 3)]) := by decide
/-- R201: without cancellation it is READ. -/
theorem test_read_async : after (exec (.readAsync (Buffer.fresh 10) 0 1 false) (waiting hello 2)) (fun t => (t.pending,
    t.results)) =
    some (1, [.ok 1 [0x6C#8]]) := by decide
/-- R202: undelivered bytes are lost. R21: without a frame `st` is AwaitingFrame. -/
theorem test_close : after (exec .close (waiting hello 2)) (fun t => (t.mode, t.srcClosed, t.st, t.pending, t.results)) =
    some (.closed, true, .awaitingFrame, 0, [.done]) := by decide
/-- R205: in mode CLOSED it does nothing. -/
theorem test_close_again : exec .close { State.reset with mode := .closed } =
    .next { State.reset with mode := .closed, results := [.done] } := rfl
/-- R203. -/
theorem test_seek : after (exec .seek (waiting hello 2)) (fun t => (t.mode, t.pending, t.results)) =
    some (.opened, 2, [.error 4#4 (.invalidOperation 3#3)]) := by decide
/-- R203. -/
theorem test_write : after (exec .write (waiting hello 2)) (fun t => t.results) =
    some [.error 4#4 (.invalidOperation 4#3)] := by decide
/-- R203. -/
theorem test_set_length : after (exec .setLength (waiting hello 2)) (fun t => t.results) =
    some [.error 4#4 (.invalidOperation 5#3)] := by decide
/-- R203. -/
theorem test_unassigned_6 : after (exec .unassigned6 (waiting hello 2)) (fun t => t.results) =
    some [.error 4#4 (.invalidOperation 6#3)] := by decide
/-- R204: INSTANCE_FAILED with the stored code. -/
theorem test_unassigned_7_failed : after (exec .unassigned7 { State.reset with mode := .failed, err := 2#4 })
    (fun t => (t.mode, t.results)) = some (.failed, [.error 8#4 (.instanceFailed 2#4)]) := by decide

/-! ## The host's placing of one word -/

/-- A placed command and a placed record run as the very next step. -/
theorem test_placed_words_run :
    after (step (State.reset.withFetchWord 8 2)) (fun t => t.mode) = some .closed ∧
      after (step (State.reset.withFetchWord 32 0x184D2204)) (fun t => t.phase) = some (.reading .flgBd) ∧
      after (step (State.reset.withFetchWord 32 0x80000005)) (fun t => t.results) =
        some [.ok 1 [0#8]] := by decide

/-! ## Witnesses: a concrete state and operands that meet the hypotheses of each statement, clause by clause -/

theorem witness_DecodeEncodeAgree : (Instr.blockRaw 0x7FFFFFFF#31).wf = true := by decide
theorem witness_EncodeDecodeAgree :
    decodeAt .hc [0xA7#8, 0x01#8] = .ok (.hc 0xA7#8, [0x01#8]) ∧ decodeAt .magic [] = .ok (.endOfStream, []) := by decide
theorem witness_ShortFieldsAreRejected :
    decodeAt .csize [0#8] = .error (.truncated .csize 1 8) := by decide
/-- Two flag fields that differ in every ignored bit. -/
theorem witness_IgnoredFlagBitsChangeNothing :
    0x4064#16 &&& decodedBits = 0xC6AF#16 &&& decodedBits ∧ (reading .flgBd []).phase = .reading .flgBd := by decide
theorem witness_MagicStartsTheDescriptor : (reading .magic []).phase = .reading .magic := rfl
theorem witness_BadMagicIsMalformedFrame :
    (reading .magic [0x04#8, 0x22#8, 0x4D#8, 0x19#8, 7#8]).phase = .reading .magic ∧
      (0x194D2204#32 : Word32) ≠ 0x184D2204#32 ∧
      unread (reading .magic [0x04#8, 0x22#8, 0x4D#8, 0x19#8, 7#8]) =
        [(0x194D2204#32 : Word32).extractLsb' 0 8, (0x194D2204#32 : Word32).extractLsb' 8 8,
          (0x194D2204#32 : Word32).extractLsb' 16 8, (0x194D2204#32 : Word32).extractLsb' 24 8] ++ [7#8] := by decide
theorem witness_EndOfStreamEndsTheRead :
    (reading .magic []).phase = .reading .magic ∧ unread (reading .magic []) = [] := by decide
/-- The three choices of the next field. -/
theorem witness_FlagsChooseTheNextField :
    (reading .flgBd []).phase = .reading .flgBd ∧ (0x4860#16).getLsbD 11 = true ∧ (0x4160#16).getLsbD 11 = false ∧
      (0x4160#16).getLsbD 8 = true ∧ (0x4060#16).getLsbD 11 = false ∧ (0x4060#16).getLsbD 8 = false := by decide
/-- With a dictionary ID after it, and without. -/
theorem witness_ContentSizeIsNotInterpreted :
    ({ reading .csize [] with work := { Work.reset with flgBd := 0x4960#16 } } : State).phase = .reading .csize ∧
      (0x4960#16).getLsbD 8 = true ∧ (reading .csize []).phase = .reading .csize ∧
      (reading .csize []).work.flgBd.getLsbD 8 = false := by decide
theorem witness_DictionaryIdIsLatched : (reading .dictId []).phase = .reading .dictId := rfl
theorem witness_MatchingChecksumStartsTheFrame :
    (reading .hc []).phase = .reading .hc ∧ 0#8 = (reading .hc []).work.hcCalc := by decide
theorem witness_WrongChecksumFails :
    (reading .hc []).phase = .reading .hc ∧ 1#8 ≠ (reading .hc []).work.hcCalc := by decide
theorem witness_ChangedChecksumNeverParses :
    (reading .hc [0#8]).phase = .reading .hc ∧ (reading .hc [0#8]).desc = none ∧
      unread (reading .hc [0#8]) = [0#8] ∧ (1#8 ≠ 0#8) ∧
      ∃ t, step (reading .hc [0#8]) = .next t ∧ t.desc ≠ none :=
  ⟨rfl, rfl, rfl, by decide, _, rfl, by decide⟩
theorem witness_HeaderIsInvisibleUntilCommitted :
    (reading .csize [1#8]).mode = .opened ∧ HeaderPosition .csize ∧ (reading .csize [1#8]).phase = .reading .csize ∧
      ∃ t, step (reading .csize [1#8]) = .next t := by
  exact ⟨rfl, .inr (.inr (.inl rfl)), rfl, _, rfl⟩
/-- The clause about HC: a mismatch. -/
theorem witness_HeaderIsInvisibleUntilCommitted_hc :
    (reading .hc [1#8]).mode = .opened ∧ HeaderPosition .hc ∧ (reading .hc [1#8]).phase = .reading .hc ∧
      ∃ t, step (reading .hc [1#8]) = .next t ∧ t.mode = .failed := by
  exact ⟨rfl, .inr (.inr (.inr (.inr rfl))), rfl, _, rfl, rfl⟩
/-- With a content checksum to come, and without. -/
theorem witness_TerminatorEndsTheFrame :
    (inFrame 0x4064#16 .blockWord [] []).phase = .reading .blockWord ∧
      (inFrame 0x4064#16 .blockWord [] []).desc = some (descriptorOf 0x4064#16 0#32) ∧
      0 < (inFrame 0x4064#16 .blockWord [] []).work.remaining ∧
      (descriptorOf 0x4064#16 0#32).contentChecksumEnabled = true ∧
      (inFrame 0x4060#16 .blockWord [] []).desc = some (descriptorOf 0x4060#16 0#32) ∧
      (descriptorOf 0x4060#16 0#32).contentChecksumEnabled = false := by decide
/-- A value that verification refuses, and verification off. -/
theorem witness_ContentChecksumEndsTheFrame :
    (inFrame 0x4064#16 .contentChecksum hello []).phase = .reading .contentChecksum ∧
      (inFrame 0x4064#16 .contentChecksum hello []).hist = some hello ∧
      0 < (inFrame 0x4064#16 .contentChecksum hello []).work.remaining ∧
      (inFrame 0x4064#16 .contentChecksum hello []).verifyContent = false ∧
      ({ inFrame 0x4064#16 .contentChecksum hello [] with verifyContent := true } : State).verifyContent = true ∧
      ~~~Config.hash32 hello ≠ Config.hash32 hello := by
  refine ⟨rfl, rfl, by decide, rfl, rfl, fun h => ?_⟩
  have := congrArg (·.getLsbD 0) h
  simp at this

/-- A state in a frame meets `InFrame`, whatever the flags. -/
theorem inFrame_ok (f : Word16) (p : Position) (h bytes : List Byte) :
    InFrame (inFrame f p h bytes) (descriptorOf f 0#32) (Buffer.fresh (blockSize (bdSizeCode f))) h :=
  ⟨rfl, rfl, rfl, (show 0 < 8 by omega), by simp [inFrame, reading, startFrame, Work.reset, Buffer.fresh],
    Nat.le_refl _⟩

/-- With a block checksum to come, and without. -/
theorem witness_EmptyRawBlockProducesNothing :
    (inFrame 0x4070#16 .blockWord [] []).phase = .reading .blockWord ∧
      InFrame (inFrame 0x4070#16 .blockWord [] []) (descriptorOf 0x4070#16 0#32) (Buffer.fresh 65536) [] ∧
      (descriptorOf 0x4070#16 0#32).blockChecksumEnabled = true ∧
      InFrame (inFrame 0x4060#16 .blockWord [] []) (descriptorOf 0x4060#16 0#32) (Buffer.fresh 65536) [] ∧
      (descriptorOf 0x4060#16 0#32).blockChecksumEnabled = false :=
  ⟨rfl, inFrame_ok _ _ _ _, rfl, inFrame_ok _ _ _ _, rfl⟩
/-- A payload of exactly the block size. -/
theorem witness_RawBlockProducesItsPayload :
    (inFrame 0x4060#16 .blockWord [] (List.replicate 65536 0#8)).phase = .reading .blockWord ∧
      InFrame (inFrame 0x4060#16 .blockWord [] (List.replicate 65536 0#8)) (descriptorOf 0x4060#16 0#32)
        (Buffer.fresh 65536) [] ∧
      (65536#31).toNat ≤ (descriptorOf 0x4060#16 0#32).maxBlockSize ∧
      (65536#31).toNat ≤ (unread (inFrame 0x4060#16 .blockWord [] (List.replicate 65536 0#8))).length :=
  ⟨rfl, inFrame_ok _ _ _ _, by decide, by
    rw [show unread (inFrame 0x4060#16 .blockWord [] (List.replicate 65536 0#8)) = List.replicate 65536 0#8 from rfl,
      List.length_replicate]
    decide⟩
theorem witness_CompressedBlockIsDecoded :
    (inFrame 0x4070#16 .blockWord [] hello).phase = .reading .blockWord ∧
      InFrame (inFrame 0x4070#16 .blockWord [] hello) (descriptorOf 0x4070#16 0#32) (Buffer.fresh 65536) [] ∧
      (5#31).toNat ≤ (descriptorOf 0x4070#16 0#32).maxBlockSize ∧
      (5#31).toNat ≤ (unread (inFrame 0x4070#16 .blockWord [] hello)).length :=
  ⟨rfl, inFrame_ok _ _ _ _, by decide, by decide⟩
/-- One byte more than the block size. -/
theorem witness_OversizedBlockIsRefused :
    (inFrame 0x4060#16 .blockWord [] []).phase = .reading .blockWord ∧
      InFrame (inFrame 0x4060#16 .blockWord [] []) (descriptorOf 0x4060#16 0#32) (Buffer.fresh 65536) [] ∧
      (descriptorOf 0x4060#16 0#32).maxBlockSize < (65537#31).toNat :=
  ⟨rfl, inFrame_ok _ _ _ _, by decide⟩
/-- The payload "hello" in the buffer, read back before its checksum. -/
theorem witness_BlockChecksumThenDispatch :
    let s : State :=
      { inFrame 0x4070#16 .blockChecksum [] [] with
        blk := some (Buffer.writeBytes (Buffer.fresh 65536) 0 hello)
        work := { Work.reset with remaining := 3, blkRaw := true, blkLen := 5#31 } }
    s.phase = .reading .blockChecksum ∧
      InFrame s (descriptorOf 0x4070#16 0#32) (Buffer.writeBytes (Buffer.fresh 65536) 0 hello) [] ∧
      Buffer.readBytes (Buffer.writeBytes (Buffer.fresh 65536) 0 hello) 0 s.work.blkLen.toNat = some hello :=
  ⟨rfl, ⟨rfl, rfl, rfl, by decide, by decide, by decide⟩, by decide⟩
/-- The first clause at a cut magic of one and of three bytes, at a header position with no byte left, and at one byte of a
block word, each with room in the scratch; the second at two of five payload bytes. -/
theorem witness_TruncationReachesNoHistory :
    ((reading .magic [0x04#8]).phase = .reading .magic ∧
      (unread (reading .magic [0x04#8])).length < Position.width .magic ∧ unread (reading .magic [0x04#8]) ≠ [] ∧
      (reading .magic [0x04#8]).scur + (unread (reading .magic [0x04#8])).length ≤ 16) ∧
    ((unread (reading .magic [0x04#8, 0x22#8, 0x4D#8])).length < Position.width .magic ∧
      unread (reading .magic [0x04#8, 0x22#8, 0x4D#8]) ≠ []) ∧
    ((reading .hc []).phase = .reading .hc ∧ (reading .hc []).pos ≤ (reading .hc []).input.length ∧
      (unread (reading .hc [])).length < Position.width .hc) ∧
    (inFrame 0x4060#16 .blockWord [] [1#8]).phase = .reading .blockWord ∧
      (inFrame 0x4060#16 .blockWord [] [1#8]).pos ≤ (inFrame 0x4060#16 .blockWord [] [1#8]).input.length ∧
      (unread (inFrame 0x4060#16 .blockWord [] [1#8])).length < Position.width .blockWord ∧
      InFrame (inFrame 0x4060#16 .blockWord [] [1#8, 2#8]) (descriptorOf 0x4060#16 0#32) (Buffer.fresh 65536) [] ∧
      (unread (inFrame 0x4060#16 .blockWord [] [1#8, 2#8])).length < (5#31).toNat :=
  ⟨by decide, by decide, by decide, rfl, by decide, by decide, inFrame_ok _ _ _ _, by decide⟩
theorem witness_ChainingDoesNotFrameRawBlocks :
    ∃ t, exec (.blockRaw 5#31)
      { inFrame 0x4060#16 .blockWord [] hello with desc := some (descriptorOf 0x4060#16 0#32) } = .next t :=
  ⟨_, rfl⟩
/-- Enough bytes, and one too few. -/
theorem witness_ReadExactContract :
    (reading .flgBd hello).pos ≤ (reading .flgBd hello).input.length ∧ (reading .flgBd hello).scur + 8 ≤ 16 ∧
      4 ≤ (reading .flgBd hello).input.length - (reading .flgBd hello).pos ∧
      ¬8 ≤ (reading .flgBd hello).input.length - (reading .flgBd hello).pos := by decide
theorem witness_TryReadExactContract :
    (reading .magic []).input.length ≤ (reading .magic []).pos ∧
      (reading .magic hello).pos < (reading .magic hello).input.length := by decide
theorem witness_PayloadReadContract :
    (inFrame 0x4060#16 .blockWord [] hello).blk = some (Buffer.fresh 65536) ∧
      (inFrame 0x4060#16 .blockWord [] hello).pos ≤ (inFrame 0x4060#16 .blockWord [] hello).input.length := by decide
/-- R191's corner case: `off` at the capacity. -/
theorem witness_ZeroLengthReadReturnsZero :
    (waiting hello 2).phase = .idle ∧ (waiting hello 2).mode = .opened ∧ 4 ≤ (Buffer.fresh 4).size := by decide
/-- Each of the three ways to be out of range, at its bound. -/
theorem witness_BadArgumentsAreRefused :
    (waiting hello 2).phase = .idle ∧ (waiting hello 2).mode = .opened ∧ ¬GoodArguments (Buffer.fresh 4) 0 (-1) ∧
      ¬GoodArguments (Buffer.fresh 4294967296) 0 2147483648 ∧ ¬GoodArguments (Buffer.fresh 4) 2 3 ∧
      GoodArguments (Buffer.fresh 4) 2 2 := by
  refine ⟨rfl, rfl, ?_, ?_, ?_, ?_⟩ <;> simp [GoodArguments, Buffer.fresh]
theorem witness_ReadDrainsThePendingWindow :
    (waiting hello 2).phase = .idle ∧ (waiting hello 2).mode = .opened ∧ GoodArguments (Buffer.fresh 10) 0 10 ∧
      (waiting hello 2).desc = some (descriptorOf 0x4060#16 0#32) ∧ (waiting hello 2).hist = some hello ∧
      0 < (waiting hello 2).pending ∧ (waiting hello 2).pending ≤ hello.length :=
  ⟨rfl, rfl, by simp [GoodArguments, Buffer.fresh], rfl, rfl, by decide, by decide⟩
theorem witness_EveryReadEnds :
    StateInv (waiting hello 2) ∧ (waiting hello 2).phase = .idle ∧ Buffer.wf (Buffer.fresh 10) :=
  ⟨waiting_inv, rfl, ⟨.nil, by simp [Buffer.fresh]⟩⟩
/-- A READ that delivers two bytes, and one that delivers none. -/
theorem witness_ReadReturnsWhatItWrote :
    StateInv (waiting hello 2) ∧ (waiting hello 2).phase = .idle ∧ (waiting hello 2).mode = .opened ∧
      Buffer.wf (Buffer.fresh 10) ∧
      (∃ t, exec (.read (Buffer.fresh 10) 0 10) (waiting hello 2) = .next t ∧
        t.results = (waiting hello 2).results ++ [.ok 2 [0x6C#8, 0x6F#8]]) ∧
      ∃ t, exec (.read (Buffer.fresh 10) 0 0) (waiting hello 2) = .next t ∧
        t.results = (waiting hello 2).results ++ [.ok 0 []] :=
  ⟨waiting_inv, rfl, rfl, ⟨.nil, by simp [Buffer.fresh]⟩, ⟨_, rfl, rfl⟩, _, rfl, rfl⟩
theorem witness_FailedReadWritesNothing :
    StateInv (waiting hello 0) ∧ (waiting hello 0).phase = .idle ∧ Buffer.wf (Buffer.fresh 10) ∧
      ∃ t, exec (.read (Buffer.fresh 10) 0 10) (waiting hello 0) = .next t ∧
        t.results = (waiting hello 0).results ++ [.error 3#4 (.truncatedStream (.fixed .blockWord) 0 4)] := by
  refine ⟨?_, rfl, ⟨.nil, by simp [Buffer.fresh]⟩, _, rfl, rfl⟩
  refine ⟨by decide, by decide, ?_, rfl, ⟨by decide, fun _ => rfl⟩, trivial, by decide, by simp [waiting, inFrame, reading,
      State.reset, startFrame]⟩
  exact ⟨.inl rfl, rfl, ⟨.nil, by simp [Buffer.fresh]⟩, by decide, by decide⟩
theorem witness_ReadAsyncIsReadOrCancelled : (waiting hello 2).phase = .idle ∧ (waiting hello 2).mode = .opened :=
  ⟨rfl, rfl⟩
/-- In each of the three modes. -/
theorem witness_CloseDiscardsTheFrame :
    (waiting hello 2).phase = .idle ∧ ({ State.reset with mode := .failed } : State).phase = .idle ∧
      ({ State.reset with mode := .closed } : State).phase = .idle := ⟨rfl, rfl, rfl⟩
theorem witness_UnsupportedCommandsAreRefused : (waiting hello 2).phase = .idle ∧ (waiting hello 2).mode = .opened :=
  ⟨rfl, rfl⟩
theorem witness_FailedBlockRefusesCommands :
    ({ State.reset with mode := .failed, err := 2#4 } : State).phase = .idle ∧
      ({ State.reset with mode := .failed, err := 2#4 } : State).mode = .failed ∧
      RefusableCommand (.read (Buffer.fresh 1) 0 0) := ⟨rfl, rfl, .inl ⟨_, _, _, rfl⟩⟩
theorem witness_ClosedBlockRefusesCommands :
    ({ State.reset with mode := .closed } : State).phase = .idle ∧
      ({ State.reset with mode := .closed } : State).mode = .closed ∧ RefusableCommand .seek :=
  ⟨rfl, rfl, .inr (.inr (.inl rfl))⟩
/-- Both clauses. -/
theorem witness_OverlapAndMisplacementAreRefused :
    (reading .hc []).phase = .reading .hc ∧ RefusableCommand .write ∧ encode .magic = .wire .magic [4#8, 34#8, 77#8, 24#8] ∧
      (reading .hc []).phase ≠ .reading .magic :=
  ⟨rfl, .inr (.inr (.inr (.inl rfl))), rfl, by decide⟩
theorem witness_LaunchMeetsTheInvariant : ∀ c ∈ [bareCommand 2#3], Buffer.wf c.dst := by decide
theorem witness_StepKeepsTheInvariant :
    StateInv (reading .magic [0x04#8]) ∧ ∃ t, step (reading .magic [0x04#8]) = .next t := ⟨reading_inv _, _, rfl⟩
theorem witness_StepAlwaysAnswers : StateInv (reading .magic [0x04#8]) := reading_inv _
/-- With a frame and without, in an open block; the last clause's own premise too. -/
theorem witness_FrameActivityBetweenCommands :
    StateInv (waiting hello 2) ∧ (waiting hello 2).phase = .idle ∧ (waiting hello 2).desc ≠ none ∧
      (waiting hello 2).mode ≠ .failed ∧ StateInv State.reset ∧ State.reset.phase = .idle ∧ State.reset.desc = none := by
  refine ⟨waiting_inv, rfl, by decide, by decide, ⟨by decide, by decide, rfl, rfl, ⟨by decide, fun _ => rfl⟩, trivial, ?_,
      ?_⟩, rfl, rfl⟩
  · exact ⟨.nil, by simp [State.reset]⟩
  · simp [State.reset]
theorem witness_CommandIsOneStep :
    StateInv { waiting hello 2 with cmds := [bareCommand 2#3] } ∧
      ({ waiting hello 2 with cmds := [bareCommand 2#3] } : State).phase = .idle :=
  ⟨⟨waiting_inv.posLe, waiting_inv.scurLe, waiting_inv.frame, waiting_inv.modeOk, waiting_inv.stOk, waiting_inv.phaseOk,
    waiting_inv.dstWf, by decide⟩, rfl⟩
theorem witness_StepRunsTheCommand :
    ({ State.reset with cmds := [bareCommand 2#3] } : State).phase = .idle ∧
      ({ State.reset with cmds := [bareCommand 2#3] } : State).cmds = bareCommand 2#3 :: [] := ⟨rfl, rfl⟩
theorem witness_StepRunsTheDecodedRecord :
    (reading .hc [0xA7#8, 1#8]).phase = .reading .hc ∧
      decodeAt .hc (unread (reading .hc [0xA7#8, 1#8])) = .ok (.hc 0xA7#8, [1#8]) := by decide
theorem witness_ReadIsRepeatedMicroSteps :
    State.reset.phase = .idle ∧ State.reset.mode = .opened ∧ GoodArguments (Buffer.fresh 4) 0 4 ∧
      ∃ t, exec (.read (Buffer.fresh 4) 0 4) State.reset = .next t :=
  ⟨rfl, rfl, by simp [GoodArguments, Buffer.fresh], _, rfl⟩
theorem witness_InputIsConsumedInOrder :
    StateInv (reading .magic [0x04#8]) ∧ ∃ t, step (reading .magic [0x04#8]) = .next t := ⟨reading_inv _, _, rfl⟩
/-- The clauses: unchanged, committed, cleared at a terminator and at its trailer. -/
theorem witness_DescriptorChangesOnlyAtFrameEnds :
    ((reading .csize [1#8]).phase = .reading .csize ∧ ∃ t, step (reading .csize [1#8]) = .next t) ∧
      ((reading .hc [0#8]).phase = .reading .hc ∧ ∃ t, step (reading .hc [0#8]) = .next t ∧ t.desc ≠ none) ∧
      (inFrame 0x4060#16 .blockWord [] [0#8, 0#8, 0#8, 0#8]).phase = .reading .blockWord ∧
      (∃ t, step (inFrame 0x4060#16 .blockWord [] [0#8, 0#8, 0#8, 0#8]) = .next t ∧ t.desc = none) ∧
      decodeAt .blockWord (unread (inFrame 0x4060#16 .blockWord [] [0#8, 0#8, 0#8, 0#8])) = .ok (.blockEnd, []) ∧
      ∃ t, step (inFrame 0x4064#16 .contentChecksum [] [0#8, 0#8, 0#8, 0#8]) = .next t ∧ t.desc = none :=
  ⟨⟨rfl, _, rfl⟩, ⟨rfl, _, rfl, by decide⟩, rfl, ⟨_, rfl, rfl⟩, by decide, _, rfl, rfl⟩

end Sys2Proof.Tests
end

section
/-! PROOFS. Running one record inside a READ: each record's meaning, at its own position, answers a next state one `Piece`
further, and the step inside a READ consumes input whenever the READ goes on (44_drain_and_host.md R207). -/

namespace Sys2Proof.Machine

/-! ## The guards -/

theorem atPosition_eq {p : Position} {s : State} (f : State → Host.Outcome State Fault Refusal)
    (h : s.phase = .reading p) : atPosition p f s = f s := if_pos h

theorem command_overlap {p : Position} {s : State} (f : State → Host.Outcome State Fault Refusal)
    (h : s.phase = .reading p) : command f s = .refused .commandOverlap := if_pos (by simp [h])

theorem command_closed {s : State} (f : State → Host.Outcome State Fault Refusal) (h : s.phase = .idle)
    (hm : s.mode = .closed) : command f s = .next (raise .closed s) := by
  simp [command, h, hm]

theorem command_failed {s : State} (f : State → Host.Outcome State Fault Refusal) (h : s.phase = .idle)
    (hm : s.mode = .failed) : command f s = .next (raise (.instanceFailed s.err) s) := by
  simp [command, h, hm]

theorem command_opened {s : State} (f : State → Host.Outcome State Fault Refusal) (h : s.phase = .idle)
    (hm : s.mode = .opened) : command f s = f s := by
  simp [command, h, hm]

/-! ## The header's order consumes nothing -/

@[simp] theorem expectHc_pos (s : State) : (expectHc s).pos = s.pos := rfl

@[simp] theorem expectDictOrHc_pos (s : State) : (expectDictOrHc s).pos = s.pos := by
  unfold expectDictOrHc; split <;> rfl

@[simp] theorem expectAfterFlags_pos (s : State) : (expectAfterFlags s).pos = s.pos := by
  unfold expectAfterFlags
  split
  · rfl
  · exact expectDictOrHc_pos s

/-- A record that latches its value first runs from s as it runs from the latched state. -/
theorem Good.of_latch {s t : State} {f : Work → Work} (h : Piece (onWork f s) t) (hpos : t.pos = s.pos)
    (hrem : (f s.work).remaining = s.work.remaining) (hoff : (f s.work).dOff = s.work.dOff) : Good s (.next t) :=
  ⟨t, rfl, h.back ⟨rfl, rfl, rfl, rfl, rfl⟩ ⟨rfl, rfl, hoff, hrem⟩, hpos.ge⟩

/-! ## Records of the header (41_header_parser.md R101 to R111) -/

section
variable {s : State} (h : Mid s) (hd : s.desc = none) (hst : s.st = .awaitingFrame)
include h hd hst

theorem execMagic_good (hp : s.phase = .reading .magic) : Good s (execMagic s) := by
  have hw : Mid (onWork (fun w => { w with magic := magicConstant }) s) := h.work _ rfl rfl rfl
  have hm : Mid (read0 (onWork (fun w => { w with magic := magicConstant }) s)) :=
    ⟨hw.st, hw.posLe, Nat.zero_le _, hw.frame, hw.opened, hw.src, hw.remaining, hw.delivered, hw.window, hw.dstWf,
      hw.cmdsWf⟩
  have hpiece := expect_piece (p := .flgBd) hm (by simp [hst, hd, frameStateOf]) ⟨hd, rfl⟩
  rw [execMagic, atPosition_eq _ hp]
  exact ⟨_, rfl, hpiece.back ⟨rfl, rfl, rfl, rfl, rfl⟩ ⟨rfl, rfl, rfl, rfl⟩, Nat.le_refl _⟩

/-- The clean end of the input: the READ returns what it has delivered, nothing (44_drain_and_host.md R194). -/
theorem returnRead_piece (he : unread s = []) : Piece s (returnRead [] s) := by
  have hpos : s.pos = s.input.length := by
    have hlen := length_unread s
    rw [he, List.length_nil] at hlen
    have hle := h.posLe
    omega
  have hidle : s.st = frameStateOf .idle s.desc := by simp [hst, hd, frameStateOf]
  refine ⟨⟨h.posLe, h.scurLe, h.frame, ?_, .of_idle hidle rfl rfl (by simp [returnRead]), trivial, h.dstWf, h.cmdsWf⟩,
    ⟨rfl, rfl, rfl, rfl, rfl⟩, .inl ⟨rfl, _, rfl, ?_⟩⟩
  · simpa [ModeOk, returnRead, h.opened] using h.src
  · exact ⟨h.delivered.symm, by simp [h.delivered], Overwritten.nil _ _,
      by simp [h.delivered, returnRead, hd, hpos], by simp [h.delivered]⟩

theorem expectAfterFlags_piece (hc : s.scur = 2) : Piece s (expectAfterFlags s) := by
  unfold expectAfterFlags
  split
  · exact expect_piece h (by simp [hst, hd, frameStateOf]) ⟨hd, hc⟩
  · exact expectDictOrHc_piece h hd hst (.inl hc)

theorem execFlgBd_good (v : Word16) (hp : s.phase = .reading .flgBd) (hc : s.scur = 2) : Good s (execFlgBd v s) := by
  have hm : Mid (onWork (fun w => { w with flgBd := v }) s) := h.work _ rfl rfl rfl
  have hpiece := expectAfterFlags_piece hm hd hst hc
  rw [execFlgBd, atPosition_eq _ hp]
  exact .of_latch hpiece (by simp) rfl rfl

theorem execCsize_good (v : Word64) (hp : s.phase = .reading .csize) (hc : s.scur = 10) : Good s (execCsize v s) := by
  have hm : Mid (onWork (fun w => { w with csize := v }) s) := h.work _ rfl rfl rfl
  have hpiece := expectDictOrHc_piece hm hd hst (.inr hc)
  rw [execCsize, atPosition_eq _ hp]
  exact .of_latch hpiece (by simp) rfl rfl

theorem execDictId_good (v : Word32) (hp : s.phase = .reading .dictId) (hc : s.scur = 6 ∨ s.scur = 14) :
    Good s (execDictId v s) := by
  have hm : Mid (onWork (fun w => { w with dictReg := v }) s) := h.work _ rfl rfl rfl
  have hpiece := expectHc_piece hm hd hst (by simp only [onWork_scur]; omega)
  rw [execDictId, atPosition_eq _ hp]
  exact .of_latch hpiece (by simp) rfl rfl

end

theorem execBadMagic_good {s : State} (h : Mid s) (v : Word32) (hp : s.phase = .reading .magic) :
    Good s (execBadMagic v s) := by
  have hm : Mid (onWork (fun w => { w with magic := v }) s) := h.work _ rfl rfl rfl
  rw [execBadMagic, atPosition_eq _ hp]
  exact .of_latch (hm.raise rfl) (by simp) rfl rfl

theorem execEndOfStream_eq {s : State} (hp : s.phase = .reading .magic) :
    execEndOfStream s = .next (returnRead [] s) :=
  atPosition_eq _ hp

theorem headerCheck_piece {s : State} (h : Mid s) (v : Byte) :
    Piece s (headerCheck v s) ∧ (headerCheck v s).pos = s.pos := by
  unfold headerCheck
  split
  · exact ⟨h.raise rfl, by simp⟩
  · have hready := startFrame_ready h (descriptorOf s.work.flgBd s.work.dictReg) (legal_blockSize _)
    obtain ⟨hpiece, hpos⟩ := loopTop_piece hready
    rw [loopStep2_eq (s := startFrame _ s) h.remaining rfl]
    exact ⟨hpiece.back ⟨rfl, rfl, rfl, rfl, rfl⟩ ⟨rfl, rfl, rfl, rfl⟩, hpos⟩

theorem execHc_good {s : State} (h : Mid s) (v : Byte) (hp : s.phase = .reading .hc) : Good s (execHc v s) := by
  obtain ⟨hpiece, hpos⟩ := headerCheck_piece (h.work (fun w => { w with hcRead := v }) rfl rfl rfl) v
  rw [execHc, atPosition_eq _ hp]
  exact .of_latch hpiece hpos rfl rfl

/-! ## Records of a block and the trailer (43_block_reader.md R150 to R166) -/

theorem terminate_piece {s : State} (h : Mid s) {d : FrameDescriptor} (hd : s.desc = some d)
    (hst : s.st = .frameTerminated) (hc : s.scur = 4) (hpend : s.pending = 0) :
    Piece s (terminate d s) ∧ (terminate d s).pos = s.pos := by
  unfold terminate
  split
  · rename_i hcc
    exact ⟨expect_piece h (by simp [hst, frameStateOf]) ⟨hpend, hc, d, hd, hcc⟩, rfl⟩
  · exact endFrame_piece h

theorem execBlockEnd_good {s : State} (h : Mid s) {d : FrameDescriptor} (hd : s.desc = some d)
    (hp : s.phase = .reading .blockWord) (hc : s.scur = 4) (hpend : s.pending = 0) : Good s (execBlockEnd s) := by
  have hw : Mid (latchBlockWord false 0#31 s) := h.work _ rfl rfl rfl
  have hm : Mid (setSt .frameTerminated (latchBlockWord false 0#31 s)) :=
    ⟨by simp [latchBlockWord, hd], hw.posLe, hw.scurLe, hw.frame, hw.opened, hw.src, hw.remaining, hw.delivered,
      hw.window, hw.dstWf, hw.cmdsWf⟩
  obtain ⟨hpiece, hpos⟩ := terminate_piece hm hd rfl hc hpend
  rw [execBlockEnd, atPosition_eq _ hp, hd]
  exact ⟨_, rfl, hpiece.back ⟨rfl, rfl, rfl, rfl, rfl⟩ ⟨rfl, rfl, rfl, rfl⟩, hpos.ge⟩

/-- A block word of any class (30_encoding.md R78). -/
theorem exec_decodeBlockWord_good {s : State} (h : Mid s) {d : FrameDescriptor} (hd : s.desc = some d)
    (hp : s.phase = .reading .blockWord) (hst : s.st = .awaitingBlock) (hc : s.scur = 4) (hpend : s.pending = 0)
    (w : Word32) : Good s (exec (decodeBlockWord w) s) := by
  have hdata : ∀ raw len, Good s (atPosition .blockWord (dataBlock raw len) s) := fun raw len => by
    rw [atPosition_eq _ hp]
    exact dataBlock_good h raw len hd hc hpend hst
  unfold decodeBlockWord
  split
  · exact execBlockEnd_good h hd hp hc hpend
  · split
    · exact hdata true 0#31
    · split
      · exact hdata true (blockWordLen w)
      · exact hdata false (blockWordLen w)

theorem verifyThenDispatch_piece {s : State} (h : Mid s) {d : FrameDescriptor} (hd : s.desc = some d) (v : Word32)
    {payload : List Byte} (hl : payload.length ≤ d.maxBlockSize) :
    Piece s (verifyThenDispatch v d payload s) ∧ (verifyThenDispatch v d payload s).pos = s.pos := by
  unfold verifyThenDispatch
  split
  · exact ⟨h.raise rfl, by simp⟩
  · exact dispatchPayload_piece h hd hl

theorem execBlockChecksum_good {s : State} (h : Mid s) {d : FrameDescriptor} {b : Buffer} {payload : List Byte}
    (hd : s.desc = some d) (hb : s.blk = some b) (hr : Buffer.readBytes b 0 s.work.blkLen.toNat = some payload)
    (hl : s.work.blkLen.toNat ≤ d.maxBlockSize) (hp : s.phase = .reading .blockChecksum) (v : Word32) :
    Good s (execBlockChecksum v s) := by
  have hlen : payload.length = s.work.blkLen.toNat := (Memory.readBytes_eq_some.mp hr).1
  have hwin : ¬ s.dst.size < s.work.dOff + s.work.remaining := Nat.not_lt.mpr h.window
  have hm : Mid (onWork (fun w => { w with bcsReg := v }) s) := h.work _ rfl rfl rfl
  obtain ⟨hpiece, hpos⟩ := verifyThenDispatch_piece hm hd v (payload := payload) (by omega)
  rw [execBlockChecksum, atPosition_eq _ hp]
  simp only [checkBlockChecksum, hd, hb, hr, if_neg hwin]
  exact .of_latch hpiece hpos rfl rfl

theorem trailerCheck_piece {s : State} (h : Mid s) (v : Word32) :
    Piece s (trailerCheck v s) ∧ (trailerCheck v s).pos = s.pos := by
  unfold trailerCheck
  split
  · exact ⟨h.raise rfl, by simp⟩
  · exact endFrame_piece h

theorem execContentChecksum_good {s : State} (h : Mid s) (hp : s.phase = .reading .contentChecksum) (v : Word32) :
    Good s (execContentChecksum v s) := by
  obtain ⟨hpiece, hpos⟩ := trailerCheck_piece (h.work (fun w => { w with ccsReg := v }) rfl rfl rfl) v
  rw [execContentChecksum, atPosition_eq _ hp]
  exact .of_latch hpiece hpos rfl rfl

/-! ## The step inside a READ -/

theorem consumed_kept (bs : List Byte) (s : State) : Kept s (consumed bs s) :=
  ⟨by simp, by simp, by simp, by simp, by simp⟩

theorem consumed_before (bs : List Byte) (s : State) : Before s (consumed bs s) :=
  ⟨by simp, by simp, by simp, by simp⟩

theorem position_width_pos (p : Position) : 0 < p.width := by cases p <;> decide

theorem frameStateOf_none {p : Position} (h : p ≠ .contentChecksum) :
    frameStateOf (.reading p) none = .awaitingFrame := by
  cases p <;> simp_all [frameStateOf]

/-- Every state of the invariant has room in the scratch for the record it awaits (42_primitive_reader.md R134). -/
theorem PositionOk.scur_add_width_le {p : Position} {s : State} (h : PositionOk p s) : s.scur + p.width ≤ 15 := by
  cases p <;> simp only [PositionOk, Position.width] at h ⊢ <;> omega

/-- The record that a full field's bytes stand for, run where the fetch leaves the machine. -/
theorem exec_decodeField_good {p : Position} {s : State} {bs : List Byte} (h : StateInv s) (hp : s.phase = .reading p)
    (hlen : bs.length = p.width) (hin : s.pos + bs.length ≤ s.input.length) :
    Good (consumed bs s) (exec (decodeField p bs) (consumed bs s)) := by
  obtain ⟨hmid, hpos, hst⟩ := Mid.of_inv h hp
  have hm : Mid (consumed bs s) := hmid.consumed hin (hlen ▸ hpos.scur_add_width_le)
  have hp' : (consumed bs s).phase = .reading p := by simpa using hp
  have hcur : (consumed bs s).scur = s.scur + p.width := by rw [consumed_scur, hlen]
  have hheader : s.desc = none → p ≠ .contentChecksum →
      (consumed bs s).desc = none ∧ (consumed bs s).st = .awaitingFrame := fun hd hne =>
    ⟨by simpa using hd, by rw [consumed_st, hst, hd, frameStateOf_none hne]⟩
  cases p with
  | magic =>
    obtain ⟨hd, hs⟩ := hheader hpos.1 (by simp)
    simp only [decodeField, decodeMagicWord]
    split
    · exact execMagic_good hm hd hs hp'
    · exact execBadMagic_good hm _ hp'
  | flgBd =>
    obtain ⟨hd, hs⟩ := hheader hpos.1 (by simp)
    exact execFlgBd_good hm hd hs _ hp' (by rw [hcur, hpos.2]; rfl)
  | csize =>
    obtain ⟨hd, hs⟩ := hheader hpos.1 (by simp)
    exact execCsize_good hm hd hs _ hp' (by rw [hcur, hpos.2]; rfl)
  | dictId =>
    obtain ⟨hd, hs⟩ := hheader hpos.1 (by simp)
    exact execDictId_good hm hd hs _ hp' (by rw [hcur]; rcases hpos.2 with hc | hc <;> simp [hc, Position.width])
  | hc => exact execHc_good hm _ hp'
  | blockWord =>
    obtain ⟨hne, hpend, hc⟩ := hpos
    obtain ⟨d, hd⟩ := Option.ne_none_iff_exists'.mp hne
    exact exec_decodeBlockWord_good hm (by simpa using hd) hp' (by simp [hst, hd, frameStateOf])
      (by rw [hcur, hc]; rfl) (by simpa using hpend) _
  | blockChecksum =>
    obtain ⟨-, -, d, b, payload, hd, hb, -, hl, hr⟩ := hpos
    exact execBlockChecksum_good hm (by simpa using hd) (by simpa using hb) (by simpa using hr) (by simpa using hl)
      hp' _
  | contentChecksum => exact execContentChecksum_good hm hp' _

/-- What a step inside a READ answers: a next state one part further, with input consumed when the READ goes on
(44_drain_and_host.md R207). -/
def Advances (s : State) (o : Host.Outcome State Fault Refusal) : Prop :=
  ∃ t, o = .next t ∧ Piece s t ∧ s.pos ≤ t.pos ∧ (t.phase ≠ .idle → s.pos < t.pos)

theorem step_of_instr {p : Position} {s s1 : State} {i : Instr} (h : s.phase = .reading p)
    (hf : fetchAt p s = .instr i s1) : step s = exec i s1 := by
  simp only [step, h, hf]

theorem step_of_truncated {p q : Position} {s s1 : State} {got : Nat} (h : s.phase = .reading p)
    (hf : fetchAt p s = .truncated q got s1) : step s = .next (truncate q got s1) := by
  simp only [step, h, hf]

theorem step_advances {p : Position} {s : State} (h : StateInv s) (hp : s.phase = .reading p) :
    Advances s (step s) := by
  obtain ⟨hmid, hpos, hst⟩ := Mid.of_inv h hp
  have hlen := length_unread s
  have hle := h.posLe
  have hf := fetchAt_eq p s
  by_cases hend : p = .magic ∧ unread s = []
  · rw [if_pos hend] at hf
    obtain ⟨rfl, hu⟩ := hend
    have hd : s.desc = none := hpos.1
    have hs : s.st = .awaitingFrame := by rw [hst, hd]; rfl
    exact ⟨returnRead [] s, (step_of_instr hp hf).trans (execEndOfStream_eq hp), returnRead_piece hmid hd hs hu,
      Nat.le_refl _, fun hne => absurd rfl hne⟩
  · rw [if_neg hend] at hf
    by_cases hfull : p.width ≤ (unread s).length
    · rw [if_pos hfull] at hf
      have hw := position_width_pos p
      have htake : ((unread s).take p.width).length = p.width := by rw [List.length_take]; omega
      obtain ⟨t, ht, hpiece, hge⟩ := exec_decodeField_good h hp htake (by omega)
      rw [consumed_pos] at hge
      exact ⟨t, (step_of_instr hp hf).trans ht, hpiece.back (consumed_kept _ s) (consumed_before _ s), by omega,
        fun _ => by omega⟩
    · rw [if_neg hfull] at hf
      have hroom := hpos.scur_add_width_le
      have hm : Mid (consumed (unread s) s) := hmid.consumed (by omega) (by omega)
      exact ⟨_, step_of_truncated hp hf, (hm.raise rfl).back (consumed_kept _ s) (consumed_before _ s),
        by simp [truncate], fun hne => absurd (raise_phase _ _) hne⟩

end Sys2Proof.Machine
end

section
/-! PROOFS. READ's loop is the machine's own step, repeated (00_scope.md R5), and it ends (44_drain_and_host.md R207). -/

namespace Sys2Proof.Machine

open Sys2Proof.Claims

/-! ## A micro-step of READ is a step -/

/-- A fetch leaves the machine at the position it read from. -/
theorem fetchAt_instr_phase {p : Position} {s s1 : State} {i : Instr} (h : fetchAt p s = .instr i s1) :
    s1.phase = s.phase := by
  rw [fetchAt_eq] at h
  split at h
  · obtain ⟨-, rfl⟩ := Fetched.instr.inj h
    rfl
  · split at h
    · obtain ⟨-, rfl⟩ := Fetched.instr.inj h
      exact consumed_phase _ s
    · exact Fetched.noConfusion h

theorem unsupported_overlap {p : Position} {s : State} (code : BitVec 3) (h : s.phase = .reading p) :
    unsupported code s = .refused .commandOverlap := command_overlap _ h

/-- Inside a READ every instruction means what it means as a record: a command is an overlap (70_reset_and_hazards.md
R271). -/
theorem runRecord_eq_exec {p : Position} {s : State} (h : s.phase = .reading p) (i : Instr) :
    runRecord i s = exec i s := by
  cases i with
  | close => exact (if_pos (by simp [h])).symm
  | read | readAsync => exact (command_overlap _ h).symm
  | seek | write | setLength | unassigned6 | unassigned7 => exact (unsupported_overlap _ h).symm
  | _ => rfl

theorem recordStep_eq_step {p : Position} {s : State} (h : s.phase = .reading p) : recordStep p s = step s := by
  unfold recordStep
  cases hf : fetchAt p s with
  | truncated q got s1 => exact (step_of_truncated h hf).symm
  | instr i s1 =>
    rw [step_of_instr h hf]
    exact runRecord_eq_exec ((fetchAt_instr_phase hf).trans h) i

/-! ## The loop on fuel -/

theorem runRecords_idle {s : State} (h : s.phase = .idle) (fuel : Nat) : runRecords fuel s = .next s := by
  unfold runRecords
  rw [h]

theorem runRecords_zero {p : Position} {s : State} (h : s.phase = .reading p) :
    runRecords 0 s = .fault .readDidNotEnd := by
  unfold runRecords
  rw [h]

theorem runRecords_succ {p : Position} {s s1 : State} (h : s.phase = .reading p) (hs : step s = .next s1) (fuel : Nat) :
    runRecords (fuel + 1) s = runRecords fuel s1 := by
  rw [runRecords, h]
  simp only [recordStep_eq_step h, hs]

theorem runRecords_succ_next {p : Position} {s t : State} {fuel : Nat} (h : s.phase = .reading p)
    (hr : runRecords (fuel + 1) s = .next t) : ∃ s1, step s = .next s1 ∧ runRecords fuel s1 = .next t := by
  cases hs : step s with
  | next s1 => exact ⟨s1, rfl, by rw [← runRecords_succ h hs, hr]⟩
  | fault | refused =>
    rw [runRecords, h] at hr
    simp [recordStep_eq_step h, hs] at hr

theorem run_succ {s s1 : State} (hs : step s = .next s1) (n : Nat) :
    Host.Core.run core (n + 1) s = Host.Core.run core n s1 := by
  have hcore : core.step s = .next s1 := hs
  simp only [Host.Core.run, hcore]

/-- A loop that answers is a finite run of the machine. -/
theorem exists_run_of_runRecords {fuel : Nat} {s t : State} (h : runRecords fuel s = .next t) :
    ∃ n, Host.Core.run core n s = .next t := by
  induction fuel generalizing s with
  | zero =>
    cases hp : s.phase with
    | idle => exact ⟨0, (runRecords_idle hp 0).symm.trans h⟩
    | reading p => rw [runRecords_zero hp] at h; cases h
  | succ fuel ih =>
    cases hp : s.phase with
    | idle => exact ⟨0, (runRecords_idle hp _).symm.trans h⟩
    | reading p =>
      obtain ⟨s1, hs, hr⟩ := runRecords_succ_next hp h
      obtain ⟨n, hn⟩ := ih hr
      exact ⟨n + 1, by rw [run_succ hs, hn]⟩

/-- A READ that has come from s0 to s with more fuel than unread bytes ends, with one result. -/
theorem runRecords_ends {fuel : Nat} {s0 s : State} (h : Piece s0 s) (hf : s.input.length - s.pos < fuel) :
    ∃ t, runRecords fuel s = .next t ∧ Piece s0 t ∧ t.phase = .idle := by
  induction fuel generalizing s with
  | zero => exact absurd hf (Nat.not_lt_zero _)
  | succ fuel ih =>
    cases hp : s.phase with
    | idle => exact ⟨s, runRecords_idle hp _, h, hp⟩
    | reading p =>
      have hbefore : Before s0 s := by
        rcases h.res with ⟨hidle, -⟩ | ⟨-, hb⟩
        · simp [hp] at hidle
        · exact hb
      obtain ⟨s1, hs, hpiece, hle, hlt⟩ := step_advances h.inv hp
      rw [runRecords_succ hp hs]
      have h1 : Piece s0 s1 := hpiece.back h.kept hbefore
      cases hp1 : s1.phase with
      | idle => exact ⟨s1, runRecords_idle hp1 fuel, h1, hp1⟩
      | reading q =>
        have hpos : s.pos < s1.pos := hlt (by simp [hp1])
        have hin := hpiece.inv.posLe
        rw [hpiece.kept.input] at hin
        exact ih h1 (by rw [hpiece.kept.input]; omega)

/-! ## READ (44_drain_and_host.md R191, R192) -/

theorem badReadArguments_iff (d : Buffer) (o : Nat) (m : Int) :
    badReadArguments d o m = true ↔ ¬ GoodArguments d o m := by
  rw [badReadArguments, decide_eq_true_iff, GoodArguments, show (hostLenMax : Int) = 2147483647 from rfl]
  omega

theorem readBody_bad {d : Buffer} {o : Nat} {m : Int} (h : ¬ GoodArguments d o m) (s : State) :
    readBody d o m s = .next (raise (.invalidArgument o m) s) :=
  if_pos ((badReadArguments_iff d o m).mpr h)

theorem readBody_good {d : Buffer} {o : Nat} {m : Int} (h : GoodArguments d o m) (s : State) :
    readBody d o m s =
      if drainsTooMuch m s then .fault .drainOutsideHistory
      else runRecords (readFuel s) (loopTop (beginRead d o m s)) :=
  if_neg (fun hb => (badReadArguments_iff d o m).mp hb h)

/-- The pending window lies in the history (10_state.md R30). -/
theorem FrameOk.not_drainsTooMuch {s : State} (h : FrameOk s) (m : Int) : drainsTooMuch m s = false := by
  cases hd : s.desc with
  | none => simp [drainsTooMuch, hd]
  | some d =>
    obtain ⟨b, hh, -, hhist, -, -, -, -, hle⟩ := h.some hd
    simp [drainsTooMuch, hhist, hle]

theorem beginRead_ready {s : State} {d : Buffer} {o : Nat} {m : Int} (h : StateInv s) (hp : s.phase = .idle)
    (hm : s.mode = .opened) (hd : Buffer.wf d) (ha : GoodArguments d o m) : Ready (beginRead d o m s) := by
  have hsrc : s.srcClosed = false := by simpa [ModeOk, hm] using h.modeOk
  have hst : s.st = frameStateOf .idle s.desc := hp ▸ h.stOk.2 (by simp [hm])
  have hwindow : o + m.toNat ≤ d.size := by
    obtain ⟨h0, -, hsize⟩ := ha
    omega
  exact ⟨h.posLe, h.scurLe, h.frame, hm, hsrc, hst, rfl, hwindow, hd, h.cmdsWf⟩

/-- READ with good arguments ends, having done what `Piece` says from the loop's first state on. -/
theorem readBody_ends {s : State} {d : Buffer} {o : Nat} {m : Int} (h : StateInv s) (hp : s.phase = .idle)
    (hm : s.mode = .opened) (hd : Buffer.wf d) (ha : GoodArguments d o m) :
    ∃ t, readBody d o m s = .next t ∧ Piece (beginRead d o m s) t ∧ t.phase = .idle := by
  obtain ⟨hpiece, hpos⟩ := loopTop_piece (beginRead_ready h hp hm hd ha)
  rw [readBody_good ha, h.frame.not_drainsTooMuch m, if_neg Bool.false_ne_true]
  refine runRecords_ends hpiece ?_
  rw [hpiece.kept.input, hpos]
  exact Nat.lt_succ_self _

/-- Settles O53: READ's fuel loop is the machine's own step inside a READ, by induction on the fuel. -/
theorem readIsRepeatedMicroSteps : Obligations.ReadIsRepeatedMicroSteps := by
  unfold Obligations.ReadIsRepeatedMicroSteps
  intro s d o m t hp hm ha hx
  have hbody : readBody d o m s = .next t := (command_opened _ hp hm).symm.trans hx
  rw [readBody_good ha] at hbody
  split at hbody
  · cases hbody
  · exact exists_run_of_runRecords hbody

end Sys2Proof.Machine
end

section
/-! PROOFS. A host command is one atomic step with one result (00_scope.md R5, 44_drain_and_host.md R190, R206). -/

namespace Sys2Proof.Machine

open Sys2Proof.Claims

/-- A command's answer: between commands again, one result more, the port as it was left. -/
def OneResult (s : State) (o : Host.Outcome State Fault Refusal) : Prop :=
  ∃ t r, o = .next t ∧ t.phase = .idle ∧ t.cmds = s.cmds ∧ t.results = s.results ++ [r]

theorem OneResult.raise (e : BlockError) (s : State) : OneResult s (.next (raise e s)) :=
  ⟨_, _, rfl, raise_phase e s, raise_cmds e s, raise_results e s⟩

/-- A command that the mode lets through or refuses (44_drain_and_host.md R204, R205). -/
theorem command_oneResult {s : State} {f : State → Host.Outcome State Fault Refusal} (hp : s.phase = .idle)
    (hf : s.mode = .opened → OneResult s (f s)) : OneResult s (command f s) := by
  cases hm : s.mode with
  | opened => rw [command_opened f hp hm]; exact hf hm
  | failed => rw [command_failed f hp hm]; exact .raise _ s
  | closed => rw [command_closed f hp hm]; exact .raise _ s

theorem unsupported_oneResult {s : State} (hp : s.phase = .idle) (code : BitVec 3) :
    OneResult s (unsupported code s) :=
  command_oneResult hp fun _ => .raise _ s

theorem execClose_oneResult {s : State} (hp : s.phase = .idle) : OneResult s (execClose s) := by
  unfold execClose
  rw [if_neg (by simp [hp])]
  cases s.mode <;> exact ⟨_, _, rfl, rfl, rfl, rfl⟩

theorem readBody_oneResult {s : State} (h : StateInv s) (hp : s.phase = .idle) (hm : s.mode = .opened) {d : Buffer}
    (hd : Buffer.wf d) (o : Nat) (m : Int) : OneResult s (readBody d o m s) := by
  by_cases ha : GoodArguments d o m
  · obtain ⟨t, ht, hpiece, hidle⟩ := readBody_ends h hp hm hd ha
    rcases hpiece.res with ⟨-, r, hr, -⟩ | ⟨hne, -⟩
    · exact ⟨t, r, ht, hidle, hpiece.kept.cmds, hr⟩
    · exact absurd hidle hne
  · rw [readBody_bad ha]
    exact .raise _ s

/-- The invariant does not look at the draw counter. -/
theorem StateInv.takeDraw {s : State} (h : StateInv s) : StateInv (takeDraw s).2 :=
  ⟨h.posLe, h.scurLe, h.frame, h.modeOk, h.stOk, h.phaseOk, h.dstWf, h.cmdsWf⟩

theorem readAsyncBody_oneResult {s : State} (h : StateInv s) (hp : s.phase = .idle) (hm : s.mode = .opened) {d : Buffer}
    (hd : Buffer.wf d) (o : Nat) (m : Int) (c : Bool) : OneResult s (readAsyncBody d o m c s) := by
  unfold readAsyncBody
  split
  · split
    · exact OneResult.raise .cancelled (takeDraw s).2
    · exact readBody_oneResult h.takeDraw hp hm hd o m
  · exact readBody_oneResult h hp hm hd o m

/-- Every command code, assigned or not (30_encoding.md R85). -/
theorem exec_decodeCommand_oneResult {s : State} (h : StateInv s) (hp : s.phase = .idle) {c : HostCmd}
    (hc : Buffer.wf c.dst) : OneResult s (exec (decodeCommand c) s) := by
  unfold decodeCommand
  split
  · exact command_oneResult hp fun hm => readBody_oneResult h hp hm hc _ _
  · exact command_oneResult hp fun hm => readAsyncBody_oneResult h hp hm hc _ _ _
  · exact execClose_oneResult hp
  all_goals exact unsupported_oneResult hp _

/-- The command at the head of the port is taken before it runs. -/
theorem StateInv.takeCommand {s : State} {c : HostCmd} {rest : List HostCmd} (h : StateInv s)
    (hc : s.cmds = c :: rest) : StateInv { s with cmds := rest } :=
  ⟨h.posLe, h.scurLe, h.frame, h.modeOk, h.stOk, h.phaseOk, h.dstWf,
    fun x hx => h.cmdsWf x (hc ▸ List.mem_cons_of_mem c hx)⟩

theorem step_command {s : State} {c : HostCmd} {rest : List HostCmd} (hp : s.phase = .idle) (hc : s.cmds = c :: rest) :
    step s = exec (decodeCommand c) { s with cmds := rest } := by
  simp only [step, hp, hc]

/-- Settles O50: a command either ends at once or is a READ, whose loop ends because every step of it that does not end
it consumes input. -/
theorem commandIsOneStep : Obligations.CommandIsOneStep := by
  unfold Obligations.CommandIsOneStep
  intro s c rest h hp hc
  have hwf : Buffer.wf c.dst := h.cmdsWf c (hc ▸ List.mem_cons_self)
  rw [step_command hp hc]
  exact exec_decodeCommand_oneResult (h.takeCommand hc) hp hwf

end Sys2Proof.Machine
end

section
/-! PROOFS. Every step keeps the invariant, and none changes the input or goes back in it (10_state.md R21, R27,
20_memory.md R61, R67). -/

namespace Sys2Proof.Machine

open Sys2Proof.Claims

/-- t comes after s in a run: it meets the invariant, over the same input and options, no earlier in the input. -/
structure Follows (s t : State) : Prop where
  inv : StateInv t
  input : t.input = s.input
  posLe : s.pos ≤ t.pos
  verifyBlock : t.verifyBlock = s.verifyBlock
  verifyContent : t.verifyContent = s.verifyContent

theorem StateInv.follows_self {s : State} (h : StateInv s) : Follows s s := ⟨h, rfl, Nat.le_refl _, rfl, rfl⟩

theorem Follows.trans {a b c : State} (h : Follows a b) (k : Follows b c) : Follows a c :=
  ⟨k.inv, k.input.trans h.input, h.posLe.trans k.posLe, k.verifyBlock.trans h.verifyBlock,
    k.verifyContent.trans h.verifyContent⟩

theorem Piece.follows {s t : State} (h : Piece s t) (hp : s.pos ≤ t.pos) : Follows s t :=
  ⟨h.inv, h.kept.input, hp, h.kept.verifyBlock, h.kept.verifyContent⟩

/-- An answer that, when it is a next state, follows s. -/
def Safe (s : State) (o : Host.Outcome State Fault Refusal) : Prop := ∀ t, o = .next t → Follows s t

theorem Follows.safe {s t : State} (h : Follows s t) : Safe s (.next t) := fun _ ht => Host.Outcome.next.inj ht ▸ h

theorem Safe.of_follows {s s1 : State} {o : Host.Outcome State Fault Refusal} (h : Follows s s1) (ho : Safe s1 o) :
    Safe s o := fun t ht => h.trans (ho t ht)

/-! ## The ends of a command -/

section
variable {s : State} (h : StateInv s) (hp : s.phase = .idle)
include h hp

theorem finish_follows (r : CmdResult) : Follows s (finish r s) :=
  ⟨⟨h.posLe, h.scurLe, h.frame, h.modeOk, by simpa [StOk, hp] using h.stOk, trivial, h.dstWf, h.cmdsWf⟩, rfl,
    Nat.le_refl _, rfl, rfl⟩

/-- An error that is not fatal only answers (60_exceptions.md R231). -/
theorem raise_safe {e : BlockError} (he : e.fatal = false) : Safe s (.next (raise e s)) := by
  have hraise : raise e s = finish (.error e.code e) s := by simp [raise, recordError, he]
  rw [hraise]
  exact (finish_follows h hp _).safe

theorem closeBlock_follows : Follows s (closeBlock s) :=
  ⟨⟨h.posLe, h.scurLe, rfl, ⟨rfl, rfl⟩, ⟨by simp, fun _ => by simp [hp, frameStateOf]⟩, by simp [PhaseOk, hp], h.dstWf,
    h.cmdsWf⟩, rfl, Nat.le_refl _, rfl, rfl⟩

theorem execClose_safe : Safe s (execClose s) := by
  have hclosed := closeBlock_follows h hp
  have hdone : Safe s (.next (finish .done (closeBlock s))) :=
    (hclosed.trans (finish_follows hclosed.inv hp .done)).safe
  unfold execClose
  rw [if_neg (by simp [hp])]
  cases s.mode with
  | closed => exact (finish_follows h hp .done).safe
  | failed | opened => exact hdone

/-- A command that the mode lets through or refuses (44_drain_and_host.md R204, R205). -/
theorem command_safe {f : State → Host.Outcome State Fault Refusal} (hf : s.mode = .opened → Safe s (f s)) :
    Safe s (command f s) := by
  cases hm : s.mode with
  | opened => rw [command_opened f hp hm]; exact hf hm
  | failed => rw [command_failed f hp hm]; exact raise_safe h hp rfl
  | closed => rw [command_closed f hp hm]; exact raise_safe h hp rfl

theorem unsupported_safe (code : BitVec 3) : Safe s (unsupported code s) :=
  command_safe h hp fun _ => raise_safe h hp rfl

end

/-! ## READ -/

theorem step_reading_safe {p : Position} {s : State} (h : StateInv s) (hp : s.phase = .reading p) :
    Safe s (step s) := by
  obtain ⟨t, ht, hpiece, hle, -⟩ := step_advances h hp
  rw [ht]
  exact (hpiece.follows hle).safe

/-- The loop is its micro-steps, and each of them follows the one before. -/
theorem runRecords_safe {fuel : Nat} {s : State} (h : StateInv s) : Safe s (runRecords fuel s) := by
  induction fuel generalizing s with
  | zero =>
    cases hp : s.phase with
    | idle => rw [runRecords_idle hp]; exact h.follows_self.safe
    | reading p => rw [runRecords_zero hp]; exact fun _ ht => nomatch ht
  | succ fuel ih =>
    cases hp : s.phase with
    | idle => rw [runRecords_idle hp]; exact h.follows_self.safe
    | reading p =>
      intro t ht
      obtain ⟨s1, hs, hr⟩ := runRecords_succ_next hp ht
      have h1 : Follows s s1 := step_reading_safe h hp s1 hs
      exact h1.trans (ih h1.inv t hr)

section
variable {s : State} (h : StateInv s) (hp : s.phase = .idle) (hm : s.mode = .opened) {d : Buffer} (hd : Buffer.wf d)
include h hp hm hd

theorem readBody_safe (o : Nat) (m : Int) : Safe s (readBody d o m s) := by
  by_cases ha : GoodArguments d o m
  · obtain ⟨hpiece, hpos⟩ := loopTop_piece (beginRead_ready h hp hm hd ha)
    have hstart : Follows s (loopTop (beginRead d o m s)) :=
      ⟨hpiece.inv, hpiece.kept.input, hpos.ge, hpiece.kept.verifyBlock, hpiece.kept.verifyContent⟩
    rw [readBody_good ha, h.frame.not_drainsTooMuch m, if_neg Bool.false_ne_true]
    exact .of_follows hstart (runRecords_safe hstart.inv)
  · rw [readBody_bad ha]
    exact raise_safe h hp rfl

theorem readAsyncBody_safe (o : Nat) (m : Int) (c : Bool) : Safe s (readAsyncBody d o m c s) := by
  have hdraw : Follows s (takeDraw s).2 := ⟨h.takeDraw, rfl, Nat.le_refl _, rfl, rfl⟩
  unfold readAsyncBody
  split
  · split
    · exact .of_follows hdraw (raise_safe hdraw.inv hp rfl)
    · exact .of_follows hdraw (readBody_safe hdraw.inv hp hm hd o m)
  · exact readBody_safe h hp hm hd o m

end

/-! ## The step -/

/-- Every command code, assigned or not (30_encoding.md R85). -/
theorem exec_decodeCommand_safe {s : State} (h : StateInv s) (hp : s.phase = .idle) {c : HostCmd}
    (hc : Buffer.wf c.dst) : Safe s (exec (decodeCommand c) s) := by
  unfold decodeCommand
  split
  · exact command_safe h hp fun hm => readBody_safe h hp hm hc _ _
  · exact command_safe h hp fun hm => readAsyncBody_safe h hp hm hc _ _ _
  · exact execClose_safe h hp
  all_goals exact unsupported_safe h hp _

theorem step_no_command {s : State} (hp : s.phase = .idle) (hc : s.cmds = []) : step s = .next s := by
  simp only [step, hp, hc]

/-- Everything the invariant gives about one step, of either level. -/
theorem step_safe {s : State} (h : StateInv s) : Safe s (step s) := by
  cases hp : s.phase with
  | reading p => exact step_reading_safe h hp
  | idle =>
    cases hc : s.cmds with
    | nil => rw [step_no_command hp hc]; exact h.follows_self.safe
    | cons c rest =>
      have htake : Follows s { s with cmds := rest } := ⟨h.takeCommand hc, rfl, Nat.le_refl _, rfl, rfl⟩
      have hwf : Buffer.wf c.dst := h.cmdsWf c (hc ▸ List.mem_cons_self)
      rw [step_command hp hc]
      exact .of_follows htake (exec_decodeCommand_safe htake.inv hp hwf)

/-- Settles O47: a step is a record of a READ, which `step_advances` takes to the invariant, or a command, whose READ
repeats such records. -/
theorem stepKeepsTheInvariant : Obligations.StepKeepsTheInvariant := by
  unfold Obligations.StepKeepsTheInvariant
  intro s t h hs
  exact (step_safe h t hs).inv

/-- Settles O54: the invariant of the next state bounds its position by the unchanged input. -/
theorem inputIsConsumedInOrder : Obligations.InputIsConsumedInOrder := by
  unfold Obligations.InputIsConsumedInOrder
  intro s t h hs
  obtain ⟨hinv, hinput, hpos, hvb, hvc⟩ := step_safe h t hs
  exact ⟨hinput, hpos, hinv.posLe, hvb, hvc⟩

end Sys2Proof.Machine
end

section
/-! PROOFS. Where the descriptor of the current frame changes and what goes with it (10_state.md R21, R25). -/

namespace Sys2Proof.Machine

/-! ## What leaves the descriptor alone -/

@[simp] theorem loopStep2_desc (s : State) : (loopStep2 s).desc = s.desc := by
  unfold loopStep2
  split <;> rfl

@[simp] theorem loopTop_desc (s : State) : (loopTop s).desc = s.desc := by
  unfold loopTop
  split
  · rfl
  · split
    · rfl
    · exact loopStep2_desc s

@[simp] theorem expectHc_desc (s : State) : (expectHc s).desc = s.desc := rfl

@[simp] theorem expectDictOrHc_desc (s : State) : (expectDictOrHc s).desc = s.desc := by
  unfold expectDictOrHc
  split <;> rfl

@[simp] theorem expectAfterFlags_desc (s : State) : (expectAfterFlags s).desc = s.desc := by
  unfold expectAfterFlags
  split
  · rfl
  · exact expectDictOrHc_desc s

@[simp] theorem loaded_desc (i : Nat) (bs : List Byte) (s : State) : (loaded i bs s).desc = s.desc := by
  rw [loaded_eq]

@[simp] theorem afterDispatch_desc (out : List Byte) (s : State) : (afterDispatch out s).desc = s.desc :=
  loopTop_desc _

@[simp] theorem decodeBlock_desc (d : FrameDescriptor) (payload : List Byte) (s : State) :
    (decodeBlock d payload s).desc = s.desc := by
  unfold decodeBlock
  split
  · simp
  · split <;> simp

@[simp] theorem dispatchPayload_desc (d : FrameDescriptor) (payload : List Byte) (s : State) :
    (dispatchPayload d payload s).desc = s.desc := by
  unfold dispatchPayload
  split
  · simp [inject]
  · simp

@[simp] theorem verifyThenDispatch_desc (v : Word32) (d : FrameDescriptor) (payload : List Byte) (s : State) :
    (verifyThenDispatch v d payload s).desc = s.desc := by
  unfold verifyThenDispatch
  split <;> simp

@[simp] theorem endFrame_desc (s : State) : (endFrame s).desc = none := loopTop_desc _

/-- An answer that, when it is a next state, has the descriptor of s. -/
def KeepsDesc (s : State) (o : Host.Outcome State Fault Refusal) : Prop := ∀ t, o = .next t → t.desc = s.desc

theorem KeepsDesc.next {s t : State} (h : t.desc = s.desc) : KeepsDesc s (.next t) :=
  fun _ ht => Host.Outcome.next.inj ht ▸ h

theorem KeepsDesc.fault (s : State) (f : Fault) : KeepsDesc s (.fault f) := fun _ ht => nomatch ht

theorem KeepsDesc.refused (s : State) (r : Refusal) : KeepsDesc s (.refused r) := fun _ ht => nomatch ht

theorem dispatch_keepsDesc (d : FrameDescriptor) (b : Buffer) (s : State) : KeepsDesc s (dispatch d b s) := by
  unfold dispatch
  split
  · exact .fault s _
  · split
    · exact .fault s _
    · exact .next (by simp)

theorem afterPayload_keepsDesc (s : State) : KeepsDesc s (afterPayload s) := by
  unfold afterPayload
  split
  · split
    · exact .next rfl
    · exact dispatch_keepsDesc _ _ s
  · exact .refused s _

theorem readPayload_short_desc {n got : Nat} {s s1 : State} (h : readPayload n s = .short got s1) :
    s1.desc = s.desc := by
  rw [readPayload_eq] at h
  split at h
  · cases h
  · cases h
    exact loaded_desc 0 _ s

theorem readPayload_complete_desc {n : Nat} {s s1 : State} (h : readPayload n s = .complete s1) :
    s1.desc = s.desc := by
  rw [readPayload_eq] at h
  split at h
  · cases h
    exact loaded_desc 0 _ s
  · cases h

theorem dataBlock_keepsDesc (raw : Bool) (len : Word31) (s : State) : KeepsDesc s (dataBlock raw len s) := by
  unfold dataBlock
  split
  · split
    · exact .next (by simp)
    · split
      · exact .fault s _
      · split
        · rename_i hread
          exact .next (by simp [readPayload_short_desc hread])
        · rename_i hread
          have hdesc := readPayload_complete_desc hread
          exact fun t ht => (afterPayload_keepsDesc _ t ht).trans hdesc
  · exact .refused s _

theorem checkBlockChecksum_keepsDesc (v : Word32) (s : State) : KeepsDesc s (checkBlockChecksum v s) := by
  unfold checkBlockChecksum
  split
  · split
    · exact .fault s _
    · split
      · exact .fault s _
      · exact .next (by simp)
  · exact .refused s _

/-! ## The records that leave it alone -/

/-- A record that answers stands at its own position. -/
theorem atPosition_next {p : Position} {f : State → Host.Outcome State Fault Refusal} {s t : State}
    (h : atPosition p f s = .next t) : s.phase = .reading p ∧ f s = .next t := by
  unfold atPosition at h
  split at h
  · exact ⟨‹_›, h⟩
  · cases h

theorem KeepsDesc.atPosition {p : Position} {f : State → Host.Outcome State Fault Refusal} {s : State}
    (hf : KeepsDesc s (f s)) : KeepsDesc s (atPosition p f s) :=
  fun t h => hf t (atPosition_next h).2

theorem execMagic_keepsDesc (s : State) : KeepsDesc s (execMagic s) := .atPosition (.next rfl)

theorem execBadMagic_keepsDesc (v : Word32) (s : State) : KeepsDesc s (execBadMagic v s) :=
  .atPosition (.next (by simp))

theorem execEndOfStream_keepsDesc (s : State) : KeepsDesc s (execEndOfStream s) := .atPosition (.next rfl)

theorem execFlgBd_keepsDesc (v : Word16) (s : State) : KeepsDesc s (execFlgBd v s) := .atPosition (.next (by simp))

theorem execCsize_keepsDesc (v : Word64) (s : State) : KeepsDesc s (execCsize v s) := .atPosition (.next (by simp))

theorem execDictId_keepsDesc (v : Word32) (s : State) : KeepsDesc s (execDictId v s) := .atPosition (.next rfl)

theorem execBlockRawEmpty_keepsDesc (s : State) : KeepsDesc s (execBlockRawEmpty s) :=
  .atPosition (dataBlock_keepsDesc _ _ s)

theorem execBlockRaw_keepsDesc (len : Word31) (s : State) : KeepsDesc s (execBlockRaw len s) :=
  .atPosition (dataBlock_keepsDesc _ _ s)

theorem execBlockCmp_keepsDesc (len : Word31) (s : State) : KeepsDesc s (execBlockCmp len s) :=
  .atPosition (dataBlock_keepsDesc _ _ s)

theorem execBlockChecksum_keepsDesc (v : Word32) (s : State) : KeepsDesc s (execBlockChecksum v s) :=
  .atPosition (checkBlockChecksum_keepsDesc v s)

/-! ## What writes it -/

/-- HC writes a descriptor unless the checksum differs (41_header_parser.md R109, R111). -/
theorem execHc_desc {v : Byte} {s t : State} (h : execHc v s = .next t) :
    s.phase = .reading .hc ∧ (t.desc = s.desc ∨ t.desc ≠ none) := by
  obtain ⟨hp, hx⟩ := atPosition_next h
  cases hx
  refine ⟨hp, ?_⟩
  unfold headerCheck
  split
  · exact .inl (by simp)
  · exact .inr (by simp)

/-- BLOCK_END clears the descriptor unless a trailer follows (43_block_reader.md R153 to R155). -/
theorem execBlockEnd_desc {s t : State} (h : execBlockEnd s = .next t) :
    s.phase = .reading .blockWord ∧ (t.desc = s.desc ∨ t.desc = none) := by
  obtain ⟨hp, hx⟩ := atPosition_next h
  refine ⟨hp, ?_⟩
  split at hx
  · cases hx
  · cases hx
    unfold terminate
    split
    · exact .inl rfl
    · exact .inr (endFrame_desc _)

/-- CONTENT_CHECKSUM clears the descriptor unless the checksum differs (43_block_reader.md R154, R155). -/
theorem execContentChecksum_desc {v : Word32} {s t : State} (h : execContentChecksum v s = .next t) :
    s.phase = .reading .contentChecksum ∧ (t.desc = s.desc ∨ t.desc = none) := by
  obtain ⟨hp, hx⟩ := atPosition_next h
  cases hx
  refine ⟨hp, ?_⟩
  unfold trailerCheck
  split
  · exact .inl (by simp)
  · exact .inr (endFrame_desc _)

/-- What record i, run at position p, can do to the descriptor (10_state.md R25). -/
def DescWrite (p : Position) (i : Instr) (s t : State) : Prop :=
  t.desc = s.desc ∨ (p = .hc ∧ t.desc ≠ none) ∨
    (((p = .blockWord ∧ i = .blockEnd) ∨ p = .contentChecksum) ∧ t.desc = none)

/-- Of all the instructions run inside a READ, three write the descriptor. -/
theorem exec_descWrite {p : Position} {s t : State} {i : Instr} (hp : s.phase = .reading p) (h : exec i s = .next t) :
    DescWrite p i s t := by
  cases i with
  | magic => exact .inl (execMagic_keepsDesc s t h)
  | badMagic v => exact .inl (execBadMagic_keepsDesc v s t h)
  | endOfStream => exact .inl (execEndOfStream_keepsDesc s t h)
  | flgBd v => exact .inl (execFlgBd_keepsDesc v s t h)
  | csize v => exact .inl (execCsize_keepsDesc v s t h)
  | dictId v => exact .inl (execDictId_keepsDesc v s t h)
  | blockRawEmpty => exact .inl (execBlockRawEmpty_keepsDesc s t h)
  | blockRaw len => exact .inl (execBlockRaw_keepsDesc len s t h)
  | blockCmp len => exact .inl (execBlockCmp_keepsDesc len s t h)
  | blockChecksum v => exact .inl (execBlockChecksum_keepsDesc v s t h)
  | hc v =>
    obtain ⟨hq, hdesc⟩ := execHc_desc h
    have hpos : p = .hc := Phase.reading.inj (hp.symm.trans hq)
    exact hdesc.imp_right fun hsome => .inl ⟨hpos, hsome⟩
  | blockEnd =>
    obtain ⟨hq, hdesc⟩ := execBlockEnd_desc h
    have hpos : p = .blockWord := Phase.reading.inj (hp.symm.trans hq)
    exact hdesc.imp_right fun hnone => .inr ⟨.inl ⟨hpos, rfl⟩, hnone⟩
  | contentChecksum v =>
    obtain ⟨hq, hdesc⟩ := execContentChecksum_desc h
    have hpos : p = .contentChecksum := Phase.reading.inj (hp.symm.trans hq)
    exact hdesc.imp_right fun hnone => .inr ⟨.inr hpos, hnone⟩
  | read | readAsync | close | seek | write | setLength | unassigned6 | unassigned7 =>
    rw [← runRecord_eq_exec hp] at h
    cases h

/-- What a fetch hands over: a record that the unread bytes decode to, with the descriptor left alone. -/
theorem fetchAt_instr {p : Position} {s s1 : State} {i : Instr} (h : fetchAt p s = .instr i s1) :
    s1.desc = s.desc ∧ ∃ rest, decodeAt p (unread s) = .ok (i, rest) := by
  rw [fetchAt_eq] at h
  split at h
  · rename_i hend
    cases h
    exact ⟨rfl, [], if_pos hend⟩
  · rename_i hmore
    split at h
    · rename_i hfull
      cases h
      refine ⟨consumed_desc _ s, (unread s).drop p.width, ?_⟩
      rw [decodeAt, if_neg hmore, if_neg (Nat.not_lt.mpr hfull)]
    · cases h

theorem fetchAt_truncated_desc {p q : Position} {s s1 : State} {got : Nat} (h : fetchAt p s = .truncated q got s1) :
    s1.desc = s.desc := by
  rw [fetchAt_eq] at h
  split at h
  · cases h
  · split at h
    · cases h
    · cases h
      exact consumed_desc _ s

/-- Settles O55: a fetch leaves the descriptor alone, and of the records only HC, BLOCK_END and CONTENT_CHECKSUM
write it. -/
theorem descriptorChangesOnlyAtFrameEnds : Obligations.DescriptorChangesOnlyAtFrameEnds := by
  unfold Obligations.DescriptorChangesOnlyAtFrameEnds
  intro s t p hp hs
  cases hf : fetchAt p s with
  | truncated q got s1 =>
    rw [step_of_truncated hp hf] at hs
    cases hs
    exact .inl (by simp [truncate, fetchAt_truncated_desc hf])
  | instr i s1 =>
    rw [step_of_instr hp hf] at hs
    obtain ⟨hdesc, rest, hdecode⟩ := fetchAt_instr hf
    rcases exec_descWrite ((fetchAt_instr_phase hf).trans hp) hs with hkeep | hcommit | ⟨⟨rfl, rfl⟩ | htrailer, hnone⟩
    · exact .inl (hkeep.trans hdesc)
    · exact .inr (.inl hcommit)
    · exact .inr (.inr ⟨.inl ⟨rfl, rest, hdecode⟩, hnone⟩)
    · exact .inr (.inr ⟨.inr htrailer, hnone⟩)

/-! ## The frame's parts between commands -/

/-- Without a descriptor there is no frame, and nothing is pending. -/
theorem FrameOk.none {s : State} (h : FrameOk s) (hd : s.desc = none) :
    s.blk = none ∧ s.hist = none ∧ s.pending = 0 := by
  unfold FrameOk at h
  split at h
  · exact ⟨‹_›, ‹_›, h⟩
  · simp_all
  · exact h.elim

/-- Settles O48: with a descriptor or without one, `FrameOk` gives the frame's other parts and `StOk` the frame state. -/
theorem frameActivityBetweenCommands : Obligations.FrameActivityBetweenCommands := by
  unfold Obligations.FrameActivityBetweenCommands
  intro s h hp
  obtain ⟨hst, hstate⟩ := h.stOk
  rw [hp] at hstate
  cases hd : s.desc with
  | none =>
    obtain ⟨hblk, hhist, hpend⟩ := h.frame.none hd
    exact ⟨by simp [hblk], by simp [hhist], by simpa [hd] using hst, fun _ => hpend,
      fun hm => by simp [hstate hm, hd, frameStateOf]⟩
  | some d =>
    obtain ⟨b, hh, hblk, hhist, -⟩ := h.frame.some hd
    exact ⟨by simp [hblk], by simp [hhist], by simpa [hd] using hst, fun hn => absurd hn (Option.some_ne_none d),
      fun hm => by simp [hstate hm, hd, frameStateOf]⟩

end Sys2Proof.Machine
end

section
/-! PROOFS. A READ that ends with an error leaves its destination alone (20_memory.md R64 item 4). -/

namespace Sys2Proof.Machine

open Sys2Proof.Claims

/-- The one result of a part of a READ that has ended says what the part did. -/
theorem Piece.ends {s t : State} {r : CmdResult} (h : Piece s t) (hp : t.phase = .idle)
    (hr : t.results = s.results ++ [r]) : Ends s t r := by
  rcases h.res with ⟨-, r', hr', hends⟩ | ⟨hne, -⟩
  · obtain rfl : r' = r := by simpa [hr] using hr'.symm
    exact hends
  · exact absurd hp hne

/-- A READ whose loop began and that ends with an error leaves the buffer it was given as it was. -/
theorem readBody_error_dst {s t : State} {d : Buffer} {o : Nat} {m : Int} {c : BitVec 4} {e : BlockError}
    (h : StateInv s) (hp : s.phase = .idle) (hm : s.mode = .opened) (hd : Buffer.wf d) (ha : GoodArguments d o m)
    (ht : readBody d o m s = .next t) (hr : t.results = s.results ++ [.error c e]) : t.dst = d := by
  obtain ⟨t', ht', hpiece, hidle⟩ := readBody_ends h hp hm hd ha
  obtain rfl : t' = t := Host.Outcome.next.inj (ht'.symm.trans ht)
  exact hpiece.ends hidle hr

/-- Settles O36: a READ that the mode or the argument check refuses keeps the recorded destination, and one whose loop
began writes only in the drain, after which it returns without an error. -/
theorem failedReadWritesNothing : Obligations.FailedReadWritesNothing := by
  unfold Obligations.FailedReadWritesNothing
  intro s d o m t c e h hp hd hx hr
  have hrefused : ∀ e', command (readBody d o m) s = .next (raise e' s) → t.dst = s.dst := fun e' he => by
    obtain rfl : raise e' s = t := Host.Outcome.next.inj (he.symm.trans hx)
    exact raise_dst e' s
  cases hm : s.mode with
  | closed => exact .inr (hrefused _ (command_closed _ hp hm))
  | failed => exact .inr (hrefused _ (command_failed _ hp hm))
  | opened =>
    have hopen := command_opened (readBody d o m) hp hm
    by_cases ha : GoodArguments d o m
    · exact .inl (readBody_error_dst h hp hm hd ha (hopen.symm.trans hx) hr)
    · exact .inr (hrefused _ (hopen.trans (readBody_bad ha s)))

end Sys2Proof.Machine
end

section
/-! PROOFS. The decoder and the encoder are inverse to each other on the well-formed instructions (30_encoding.md R71,
R78, R81, R84, R85). -/

namespace Sys2Proof.Machine

/-! ## Words and their bytes -/

/-- Bytes come back from the word they assemble to. -/
theorem toLe_ofNat_le (bs : List Byte) {n : Nat} (h : bs.length = n) :
    toLe n (BitVec.ofNat (8 * n) (le bs)).toNat = bs := by
  subst h
  have hlt : le bs < 2 ^ (8 * bs.length) := by
    rw [Nat.pow_mul]
    exact le_lt bs
  rw [BitVec.toNat_ofNat, Nat.mod_eq_of_lt hlt, toLe_le bs _ rfl]

/-- The bytes of a 32-bit word, least significant first (20_memory.md R55). -/
theorem toLe_word32 (w : Word32) :
    toLe 4 w.toNat = [w.extractLsb' 0 8, w.extractLsb' 8 8, w.extractLsb' 16 8, w.extractLsb' 24 8] := by
  have hbyte : ∀ k, BitVec.ofNat 8 (w.toNat / 2 ^ k) = w.extractLsb' k 8 := fun k => by
    apply BitVec.eq_of_toNat_eq
    rw [BitVec.extractLsb'_toNat, BitVec.toNat_ofNat, Nat.shiftRight_eq_div_pow]
  simp only [toLe, Nat.div_div_eq_div_mul, ← hbyte]
  simp

/-! ## The classes of a magic word and of a block word -/

theorem decodeMagicWord_wf (w : Word32) : (decodeMagicWord w).wf = true := by
  unfold decodeMagicWord
  split
  · rfl
  · exact decide_eq_true ‹_›

theorem encode_decodeMagicWord (w : Word32) : encode (decodeMagicWord w) = .wire .magic (toLe 4 w.toNat) := by
  unfold decodeMagicWord
  split
  · subst w
    rfl
  · rfl

/-- The two words of length 0 are those of the rows BLOCK_END and BLOCK_RAW_EMPTY (30_encoding.md R78, log 25). -/
theorem blockWordLen_eq_zero_iff {w : Word32} : blockWordLen w = 0#31 ↔ w = 0x00000000#32 ∨ w = 0x80000000#32 := by
  constructor
  · intro h
    rw [← blockWordOf_fields w, h]
    cases blockWordRaw w <;> decide
  · rintro (rfl | rfl) <;> decide

/-- A word with a length is a data block, raw or compressed by its flag. -/
theorem decodeBlockWord_of {n : Word31} (raw : Bool) (h : n ≠ 0#31) :
    decodeBlockWord (blockWordOf raw n) = if raw then .blockRaw n else .blockCmp n := by
  have hlen : blockWordLen (blockWordOf raw n) ≠ 0#31 := by rwa [blockWordLen_of]
  obtain ⟨hend, hempty⟩ := not_or.mp (blockWordLen_eq_zero_iff.not.mp hlen)
  rw [decodeBlockWord, if_neg hend, if_neg hempty, blockWordRaw_of, blockWordLen_of]

theorem decodeBlockWord_wf (w : Word32) : (decodeBlockWord w).wf = true := by
  unfold decodeBlockWord
  split
  · rfl
  · split
    · rfl
    · have hlen : blockWordLen w ≠ 0#31 := blockWordLen_eq_zero_iff.not.mpr (not_or.mpr ⟨‹_›, ‹_›⟩)
      split <;> exact decide_eq_true hlen

theorem encode_decodeBlockWord (w : Word32) : encode (decodeBlockWord w) = .wire .blockWord (toLe 4 w.toNat) := by
  unfold decodeBlockWord
  split
  · subst w
    rfl
  · split
    · subst w
      rfl
    · have hfields := blockWordOf_fields w
      cases hraw : blockWordRaw w <;> rw [hraw] at hfields <;> simp [encode, hfields]

/-! ## Fields of full width -/

theorem decodeField_wf (p : Position) (bs : List Byte) : (decodeField p bs).wf = true := by
  cases p with
  | magic => exact decodeMagicWord_wf _
  | blockWord => exact decodeBlockWord_wf _
  | flgBd | csize | dictId | hc | blockChecksum | contentChecksum => rfl

/-- No byte of a full field is dropped (30_encoding.md R81). -/
theorem encode_decodeField {p : Position} {bs : List Byte} (h : bs.length = p.width) :
    encode (decodeField p bs) = .wire p bs := by
  cases p with
  | magic => rw [decodeField, encode_decodeMagicWord, toLe_ofNat_le bs (n := 4) h]
  | blockWord => rw [decodeField, encode_decodeBlockWord, toLe_ofNat_le bs (n := 4) h]
  | flgBd => rw [decodeField, encode, toLe_ofNat_le bs (n := 2) h]
  | csize => rw [decodeField, encode, toLe_ofNat_le bs (n := 8) h]
  | dictId | blockChecksum | contentChecksum => rw [decodeField, encode, toLe_ofNat_le bs (n := 4) h]
  | hc =>
    obtain ⟨b, rfl⟩ := List.length_eq_one_iff.mp h
    simp [decodeField, encode, le]

theorem decode_wire {p : Position} {bs : List Byte} (h : bs.length = p.width) :
    decode (.wire p bs) = .ok (decodeField p bs) := by
  simp only [decode, decodeAt_full p bs h]

/-- Everything a position can be read as: the clean end of a magic position, or a full field (42_primitive_reader.md
R131, R132). -/
theorem decodeAt_eq_ok_iff {p : Position} {bs rest : List Byte} {i : Instr} :
    decodeAt p bs = .ok (i, rest) ↔
      (p = .magic ∧ bs = [] ∧ i = .endOfStream ∧ rest = []) ∨
        (p.width ≤ bs.length ∧ i = decodeField p (bs.take p.width) ∧ rest = bs.drop p.width) := by
  unfold decodeAt
  split
  · rename_i hend
    obtain ⟨rfl, rfl⟩ := hend
    simp [Position.width, eq_comm]
  · rename_i hmore
    have hnot : ¬(p = .magic ∧ bs = [] ∧ i = .endOfStream ∧ rest = []) := fun h => hmore ⟨h.1, h.2.1⟩
    split
    · rename_i hshort
      simp [hnot, Nat.not_le.mpr hshort]
    · rename_i hfull
      simp [hnot, Nat.not_lt.mp hfull, eq_comm]

/-! ## The statements -/

/-- Settles O1: a record's encoding has its position's width, so it is decoded as a full field, whose word is the one
encoded; a command's code selects its own row. -/
theorem decodeEncodeAgree : Obligations.DecodeEncodeAgree := by
  unfold Obligations.DecodeEncodeAgree
  intro i hwf
  have hword : ∀ (v : Word32), BitVec.ofNat 32 (le (toLe 4 v.toNat)) = v := ofNat_le_toLe 4
  cases i with
  | magic | endOfStream | blockEnd | blockRawEmpty => rfl
  | badMagic v =>
    have hv : v ≠ magicConstant := of_decide_eq_true hwf
    rw [encode, decode_wire (length_toLe 4 _), decodeField, hword, decodeMagicWord, if_neg hv]
  | blockRaw n =>
    rw [encode, decode_wire (length_toLe 4 _), decodeField, hword, decodeBlockWord_of true (of_decide_eq_true hwf)]
    rfl
  | blockCmp n =>
    rw [encode, decode_wire (length_toLe 4 _), decodeField, hword, decodeBlockWord_of false (of_decide_eq_true hwf)]
    rfl
  | flgBd v => rw [encode, decode_wire (length_toLe 2 _), decodeField, ofNat_le_toLe 2 v]
  | csize v => rw [encode, decode_wire (length_toLe 8 _), decodeField, ofNat_le_toLe 8 v]
  | dictId v | blockChecksum v | contentChecksum v =>
    rw [encode, decode_wire (length_toLe 4 _), decodeField, hword]
  | hc v =>
    rw [encode, decode_wire rfl]
    simp [decodeField, le]
  | read | readAsync | close | seek | write | setLength | unassigned6 | unassigned7 => rfl

/-- Settles O2: what is decoded is the end of the stream or a full field, and either encodes to the bytes it was read
from. -/
theorem encodeDecodeAgree : Obligations.EncodeDecodeAgree := by
  unfold Obligations.EncodeDecodeAgree
  intro p bs i rest h
  rcases decodeAt_eq_ok_iff.mp h with ⟨rfl, rfl, rfl, rfl⟩ | ⟨hfull, rfl, rfl⟩
  · exact ⟨rfl, [], rfl, rfl, fun hne => absurd rfl hne⟩
  · have hlen : (bs.take p.width).length = p.width := List.length_take_of_le hfull
    exact ⟨decodeField_wf p _, bs.take p.width, encode_decodeField hlen, (List.take_append_drop _ bs).symm,
      fun _ => hlen⟩

/-- Settles O4: the four bytes are a full field that assembles to the word, and the model's flag and length of a block
word are its bit 31 and its bits 30:0. -/
theorem blockWordClasses : Obligations.BlockWordClasses := by
  unfold Obligations.BlockWordClasses
  intro w
  have hlen : blockWordLen w = w.setWidth 31 := (BitVec.setWidth_eq_extractLsb' (by decide)).symm
  rw [← toLe_word32, decodeAt_full _ _ (length_toLe 4 _), decodeField, ofNat_le_toLe 4 w, decodeBlockWord, hlen,
    blockWordRaw]

/-- Settles O5: each of the twelve words is a closed case that the table's decoder evaluates. -/
theorem tableWordsDecode : Obligations.TableWordsDecode := by
  unfold Obligations.TableWordsDecode
  decide

/-- Settles O8: a right shift by 8 and a mask of 8 ones keep the bits 15:8, which are the quotient by 256 modulo 256. -/
theorem headerChecksumFormula : Obligations.HeaderChecksumFormula := by
  unfold Obligations.HeaderChecksumFormula
  intro bs
  have hbits : headerChecksum bs = Claims.checksum bs := by
    have hmask : ∀ n : Nat, n &&& 255 = n % 256 := fun n => Nat.and_two_pow_sub_one_eq_mod n 8
    apply BitVec.eq_of_toNat_eq
    simp [headerChecksum, Claims.checksum, hmask]
  have hnum : (Claims.checksum bs).toNat = (Config.hash32 bs).toNat / 256 % 256 := by
    rw [Claims.checksum, BitVec.extractLsb'_toNat, Nat.shiftRight_eq_div_pow]
  exact ⟨hbits, hbits ▸ hnum⟩

end Sys2Proof.Machine
end

section
/-! PROOFS. What runs where: inside a READ a step runs the record the next bytes decode to, and an instruction met where
it does not belong is refused by name (30_encoding.md R82, 70_reset_and_hazards.md R271; log 6, log 7). -/

namespace Sys2Proof.Machine

open Sys2Proof.Claims

theorem unread_consumed (bs : List Byte) (s : State) : unread (consumed bs s) = (unread s).drop bs.length := by
  simp [unread]

/-- The fetch is the decoder over the unread bytes, with the record's bytes consumed into the scratch. -/
theorem fetchAt_of_decodeAt {p : Position} {s : State} {i : Instr} {rest : List Byte}
    (h : decodeAt p (unread s) = .ok (i, rest)) :
    fetchAt p s = .instr i (consumed ((unread s).take p.width) s) := by
  rw [fetchAt_eq]
  rcases decodeAt_eq_ok_iff.mp h with ⟨rfl, hnone, rfl, -⟩ | ⟨hfull, rfl, -⟩
  · rw [if_pos ⟨rfl, hnone⟩, hnone, List.take_nil, consumed_nil]
  · have hmore : ¬(p = .magic ∧ unread s = []) := fun hend => by
      have hw := position_width_pos p
      rw [hend.2, List.length_nil] at hfull
      omega
    rw [if_neg hmore, if_pos hfull]

/-- The record's bytes are what the decoder takes from the unread bytes. -/
theorem unread_consumed_take {p : Position} {s : State} {i : Instr} {rest : List Byte}
    (h : decodeAt p (unread s) = .ok (i, rest)) : unread (consumed ((unread s).take p.width) s) = rest := by
  rw [unread_consumed]
  rcases decodeAt_eq_ok_iff.mp h with ⟨rfl, hnone, -, rfl⟩ | ⟨hfull, -, rfl⟩
  · rw [hnone, List.drop_nil]
  · rw [List.length_take_of_le hfull]

/-- Settles O52: the step runs what the fetch hands over, which is what the unread bytes decode to. -/
theorem stepRunsTheDecodedRecord : Obligations.StepRunsTheDecodedRecord := by
  unfold Obligations.StepRunsTheDecodedRecord
  intro s p i rest hp h
  exact ⟨step_of_instr hp (fetchAt_of_decodeAt h), unread_consumed_take h⟩

/-- Inside a READ a command's meaning is the refusal of an overlap. -/
theorem exec_command_overlap {p : Position} {s : State} {i : Instr} (hp : s.phase = .reading p)
    (hi : RefusableCommand i ∨ i = .close) : exec i s = .refused .commandOverlap := by
  rw [← runRecord_eq_exec hp]
  rcases hi with (⟨d, o, m, rfl⟩ | ⟨d, o, m, c, rfl⟩ | rfl | rfl | rfl | rfl | rfl) | rfl <;> rfl

theorem atPosition_misplaced {p : Position} {s : State} (f : State → Host.Outcome State Fault Refusal)
    (h : s.phase ≠ .reading p) : atPosition p f s = .refused .outOfPosition := if_neg h

/-- Every wire record is guarded by the position it is encoded at. -/
theorem exec_eq_atPosition {i : Instr} {p : Position} {ws : List Byte} (h : encode i = .wire p ws) :
    ∃ f, ∀ s, exec i s = atPosition p f s := by
  cases i with
  | read | readAsync | close | seek | write | setLength | unassigned6 | unassigned7 => cases h
  | _ =>
    obtain ⟨rfl, -⟩ := Encoding.wire.inj h
    exact ⟨_, fun s => rfl⟩

/-- Settles O42: a command inside a READ meets its overlap guard, and a wire record its position's guard. -/
theorem overlapAndMisplacementAreRefused : Obligations.OverlapAndMisplacementAreRefused := by
  unfold Obligations.OverlapAndMisplacementAreRefused
  refine ⟨fun s i p hp hi => exec_command_overlap hp hi, fun s i p ws hw hp => ?_⟩
  obtain ⟨f, hf⟩ := exec_eq_atPosition hw
  rw [hf, atPosition_misplaced f hp]

end Sys2Proof.Machine
end

section
/-! PROOFS. The records of the frame header: the exact next state of each, and what the header shows before its commit
(41_header_parser.md R100 to R112). -/

namespace Sys2Proof.Machine

open Sys2Proof.Claims

/-! ## The model's operations in the vocabulary of the statements -/

theorem headerChecksum_eq_checksum (bs : List Byte) : headerChecksum bs = checksum bs :=
  (headerChecksumFormula bs).1

theorem raise_fatal_eq {e : BlockError} (h : e.fatal = true) (s : State) : raise e s = failedWith e.code e s := by
  rw [raise_eq, if_pos h, if_pos h]
  rfl

theorem expectHc_eq (s : State) :
    expectHc s =
      { s with phase := .reading .hc, work := { s.work with hcCalc := checksum (scratchBytes s) } } := by
  rw [expectHc, headerChecksum_eq_checksum]
  rfl

/-- DICTID is optional: without it the checksum is taken at once (41_header_parser.md R107, R108). -/
theorem expectDictOrHc_eq (s : State) :
    expectDictOrHc s =
      { s with
        phase := .reading (if s.work.flgBd.getLsbD 8 then .dictId else .hc)
        work := { s.work with
          hcCalc := if s.work.flgBd.getLsbD 8 then s.work.hcCalc else checksum (scratchBytes s) } } := by
  rw [expectDictOrHc, bdHasDictionary, expectHc_eq]
  cases s.work.flgBd.getLsbD 8 <;> rfl

/-- CSIZE is optional and comes before DICTID (41_header_parser.md R106). -/
theorem expectAfterFlags_eq (s : State) :
    expectAfterFlags s =
      { s with
        phase := .reading
          (if s.work.flgBd.getLsbD 11 then .csize else if s.work.flgBd.getLsbD 8 then .dictId else .hc)
        work := { s.work with
          hcCalc := if s.work.flgBd.getLsbD 11 || s.work.flgBd.getLsbD 8 then s.work.hcCalc
            else checksum (scratchBytes s) } } := by
  rw [expectAfterFlags, bdHasContentSize, expectDictOrHc_eq]
  cases s.work.flgBd.getLsbD 11 <;> rfl

/-- A new frame has nothing pending, so the loop awaits its first block word (44_drain_and_host.md R195). -/
theorem loopStep2_startFrame (d : FrameDescriptor) (s : State) :
    loopStep2 (startFrame d s) = enterBlock (startFrame d s) := if_pos rfl

theorem headerCheck_match {v : Byte} {s : State} (h : v = s.work.hcCalc) :
    headerCheck v s = enterBlock (startFrame (descriptorOf s.work.flgBd s.work.dictReg) s) := by
  rw [headerCheck, if_neg (not_not.mpr h), loopStep2_startFrame]

theorem headerCheck_mismatch {v : Byte} {s : State} (h : v ≠ s.work.hcCalc) :
    headerCheck v s = failedWith 2#4 (.headerChecksumMismatch s.work.hcCalc v) s := by
  rw [headerCheck, if_pos h, raise_fatal_eq rfl]
  rfl

/-! ## The exact next state of each record -/

/-- Settles O6: the descriptor's size is the table's at BD[6:4], and the table's eight rows are closed cases. -/
theorem blockSizeTable : Obligations.BlockSizeTable := by
  unfold Obligations.BlockSizeTable
  exact ⟨fun _ _ => rfl, by decide⟩

/-- Settles O9: MAGIC resets the scratch cursor and awaits FLG_BD. -/
theorem magicStartsTheDescriptor : Obligations.MagicStartsTheDescriptor := by
  unfold Obligations.MagicStartsTheDescriptor
  intro s hp
  rw [exec, execMagic, atPosition_eq _ hp]
  rfl

/-- A wrong magic is the fatal error malformed-frame with the value read (41_header_parser.md R102). -/
theorem exec_badMagic {s : State} (v : Word32) (hp : s.phase = .reading .magic) :
    exec (.badMagic v) s =
      .next (failedWith 1#4 (.malformedFrame v) { s with work := { s.work with magic := v } }) := by
  rw [exec, execBadMagic, atPosition_eq _ hp, raise_fatal_eq rfl]
  rfl

theorem exec_endOfStream {s : State} (hp : s.phase = .reading .magic) :
    exec .endOfStream s = .next (ended (.ok s.work.delivered []) s) :=
  execEndOfStream_eq hp

/-- Settles O11: END_OF_STREAM returns from the READ, and it is what a fetch of no bytes at a magic position hands
over. -/
theorem endOfStreamEndsTheRead : Obligations.EndOfStreamEndsTheRead := by
  unfold Obligations.EndOfStreamEndsTheRead
  refine ⟨fun s hp => exec_endOfStream hp, fun s hp hu => ?_⟩
  have hfetch : fetchAt .magic s = .instr .endOfStream s := by rw [fetchAt_eq, if_pos ⟨rfl, hu⟩]
  rw [step_of_instr hp hfetch, exec_endOfStream hp]

/-- Settles O12: the choice of the next field, read from the flags just latched. -/
theorem flagsChooseTheNextField : Obligations.FlagsChooseTheNextField := by
  unfold Obligations.FlagsChooseTheNextField
  intro s v hp
  rw [exec, execFlgBd, atPosition_eq _ hp, expectAfterFlags_eq]
  rfl

/-- Settles O13: the choice after CSIZE, read from the flags latched before. -/
theorem contentSizeIsNotInterpreted : Obligations.ContentSizeIsNotInterpreted := by
  unfold Obligations.ContentSizeIsNotInterpreted
  intro s v hp
  rw [exec, execCsize, atPosition_eq _ hp, expectDictOrHc_eq]
  rfl

/-- Settles O14: HC always follows DICTID. -/
theorem dictionaryIdIsLatched : Obligations.DictionaryIdIsLatched := by
  unfold Obligations.DictionaryIdIsLatched
  intro s v hp
  rw [exec, execDictId, atPosition_eq _ hp, expectHc_eq]
  rfl

/-- Settles O15: the matching branch of the header check, with the descriptor field by field. -/
theorem matchingChecksumStartsTheFrame : Obligations.MatchingChecksumStartsTheFrame := by
  unfold Obligations.MatchingChecksumStartsTheFrame
  intro s v hp hv
  rw [exec, execHc, atPosition_eq _ hp, headerCheck_match]
  · rfl
  · exact hv

/-- Settles O16: the mismatching branch of the header check. -/
theorem wrongChecksumFails : Obligations.WrongChecksumFails := by
  unfold Obligations.WrongChecksumFails
  intro s v hp hv
  rw [exec, execHc, atPosition_eq _ hp, headerCheck_mismatch]
  · rfl
  · exact hv

/-! ## The ignored flag bits -/

/-- A bit under the mask is the same in two words that agree under it. -/
theorem getLsbD_eq_of_and_eq {n : Nat} {v v' m : BitVec n} (h : v &&& m = v' &&& m) {i : Nat}
    (hm : m.getLsbD i = true) : v.getLsbD i = v'.getLsbD i := by
  have hbit := congrArg (·.getLsbD i) h
  simpa [hm] using hbit

theorem bdSizeCode_eq_of_decodedBits {v v' : Word16} (h : v &&& decodedBits = v' &&& decodedBits) :
    bdSizeCode v = bdSizeCode v' := by
  apply BitVec.eq_of_getLsbD_eq
  intro i hi
  have hmask : ∀ j < 3, decodedBits.getLsbD (12 + j) = true := by decide
  simp only [bdSizeCode, BitVec.getLsbD_extractLsb', getLsbD_eq_of_and_eq h (hmask i hi)]

/-- A descriptor takes the decoded bits of its flags and no others (41_header_parser.md R104, R105). -/
theorem descriptorOf_eq_of_decodedBits {v v' : Word16} (h : v &&& decodedBits = v' &&& decodedBits) (d : Word32) :
    descriptorOf v d = descriptorOf v' d := by
  have hcontent : flgContentChecksum v = flgContentChecksum v' := getLsbD_eq_of_and_eq h (by decide)
  have hchain : flgBlockChaining v = flgBlockChaining v' := congrArg not (getLsbD_eq_of_and_eq h (by decide))
  have hblock : flgBlockChecksum v = flgBlockChecksum v' := getLsbD_eq_of_and_eq h (by decide)
  have hdict : bdHasDictionary v = bdHasDictionary v' := getLsbD_eq_of_and_eq h (by decide)
  rw [descriptorOf, descriptorOf, hcontent, hchain, hblock, hdict, bdSizeCode_eq_of_decodedBits h]

/-- Settles O7: the descriptor and the choice of the next field read decoded bits only. -/
theorem ignoredFlagBitsChangeNothing : Obligations.IgnoredFlagBitsChangeNothing := by
  unfold Obligations.IgnoredFlagBitsChangeNothing
  intro v v' s h hp
  have hsize : v.getLsbD 11 = v'.getLsbD 11 := getLsbD_eq_of_and_eq h (by decide)
  have hdict : v.getLsbD 8 = v'.getLsbD 8 := getLsbD_eq_of_and_eq h (by decide)
  refine ⟨descriptorOf_eq_of_decodedBits h, _, flagsChooseTheNextField s v hp, ?_, rfl, rfl⟩
  rw [flagsChooseTheNextField s v' hp, hsize, hdict]

/-! ## A step over the bytes of one record -/

theorem decodeAt_append {p : Position} {bs : List Byte} (h : bs.length = p.width) (rest : List Byte) :
    decodeAt p (bs ++ rest) = .ok (decodeField p bs, rest) :=
  decodeAt_eq_ok_iff.mpr (.inr ⟨by simp [h], by rw [List.take_left' h], by rw [List.drop_left' h]⟩)

/-- When the next bytes fill the field, a step runs the record they stand for. -/
theorem step_of_unread {p : Position} {s : State} {bs rest : List Byte} (hp : s.phase = .reading p)
    (hlen : bs.length = p.width) (hu : unread s = bs ++ rest) : step s = exec (decodeField p bs) (consumed bs s) := by
  have hdec : decodeAt p (unread s) = .ok (decodeField p bs, rest) := by rw [hu, decodeAt_append hlen]
  rw [step_of_instr hp (fetchAt_of_decodeAt hdec), hu, List.take_left' hlen]

theorem decodeField_magic_toLe {v : Word32} (hv : v ≠ magicConstant) :
    decodeField .magic (toLe 4 v.toNat) = .badMagic v := by
  rw [decodeField, ofNat_le_toLe 4 v, decodeMagicWord, if_neg hv]

/-- Settles O10: the four bytes assemble to the value, which is not the magic. -/
theorem badMagicIsMalformedFrame : Obligations.BadMagicIsMalformedFrame := by
  unfold Obligations.BadMagicIsMalformedFrame
  refine ⟨fun s v hp => exec_badMagic v hp, fun s v rest hp hv hu => ?_⟩
  rw [← toLe_word32] at hu
  have hlen : (toLe 4 v.toNat).length = Position.magic.width := length_toLe 4 _
  have hstep := step_of_unread hp hlen hu
  rw [decodeField_magic_toLe hv, exec_badMagic v (by simpa using hp)] at hstep
  exact ⟨_, hstep, rfl, rfl, by simp [failedWith], by simp [failedWith]⟩

theorem step_hc {s : State} {b : Byte} {rest : List Byte} (hp : s.phase = .reading .hc) (hu : unread s = b :: rest) :
    step s = exec (.hc b) (consumed [b] s) := by
  rw [step_of_unread hp (bs := [b]) rfl hu]
  simp [decodeField, le]

/-- A byte other than the computed one fails the READ and commits nothing (41_header_parser.md R109). -/
theorem step_hc_mismatch {s : State} {b : Byte} {rest : List Byte} (hp : s.phase = .reading .hc)
    (hu : unread s = b :: rest) (hb : b ≠ s.work.hcCalc) :
    ∃ t, step s = .next t ∧ t.desc = s.desc ∧ t.mode = .failed ∧
      t.results = s.results ++ [.error 2#4 (.headerChecksumMismatch s.work.hcCalc b)] := by
  have hexec := wrongChecksumFails (consumed [b] s) b (by simpa using hp) (by simpa using hb)
  exact ⟨_, (step_hc hp hu).trans hexec, by simp [failedWith], rfl, by simp [failedWith]⟩

theorem unread_set {s : State} {b : Byte} {rest : List Byte} (hu : unread s = b :: rest) (b' : Byte) :
    unread { s with input := s.input.set s.pos b' } = b' :: rest := by
  unfold unread at hu ⊢
  simp only [List.drop_set, Nat.lt_irrefl, if_false, Nat.sub_self, hu, List.set_cons_zero]

/-- Settles O17: the byte that parses is the computed one, so every other byte is a mismatch. -/
theorem changedChecksumNeverParses : Obligations.ChangedChecksumNeverParses := by
  unfold Obligations.ChangedChecksumNeverParses
  intro s t b rest b' hp hd hu hs hcommit hne
  have hb : b = s.work.hcCalc := by
    by_contra hb
    obtain ⟨t', hs', hdesc, -⟩ := step_hc_mismatch hp hu hb
    obtain rfl : t = t' := Host.Outcome.next.inj (hs.symm.trans hs')
    exact hcommit (hdesc.trans hd)
  obtain ⟨t', hs', hdesc, hmode, hres⟩ :=
    step_hc_mismatch (s := { s with input := s.input.set s.pos b' }) hp (unread_set hu b') (hb ▸ hne)
  exact ⟨t', hs', hdesc.trans hd, hmode, hres⟩

/-! ## Nothing of the header is visible before its commit (41_header_parser.md R100) -/

/-- t shows nothing of a header that s does not show, but for an error of the header: malformed-frame,
header-checksum-mismatch or truncated-stream. -/
structure Invisible (s t : State) : Prop where
  st : t.st = s.st
  desc : t.desc = s.desc
  blk : t.blk = s.blk
  hist : t.hist = s.hist
  pending : t.pending = s.pending
  dst : t.dst = s.dst
  modeErr : t.mode = s.mode ∧ t.err = s.err ∨ t.mode = .failed ∧ (t.err = 1#4 ∨ t.err = 2#4 ∨ t.err = 3#4)

theorem Invisible.of_next {s u t : State} {o : Host.Outcome State Fault Refusal} (hu : Invisible s u)
    (ho : o = .next u) (ht : o = .next t) : Invisible s t :=
  Host.Outcome.next.inj (ho.symm.trans ht) ▸ hu

/-- The registers that a header's record writes are no part of what is visible. -/
theorem Invisible.of_registers {s : State} {c : Nat} {ph : Phase} {w : Work} {rs : List CmdResult} :
    Invisible s { s with scur := c, phase := ph, work := w, results := rs } :=
  ⟨rfl, rfl, rfl, rfl, rfl, rfl, .inl ⟨rfl, rfl⟩⟩

theorem Invisible.of_failedWith {c : BitVec 4} (hc : c = 1#4 ∨ c = 2#4 ∨ c = 3#4) {e : BlockError} {s : State}
    {w : Work} : Invisible s (failedWith c e { s with work := w }) :=
  ⟨rfl, rfl, rfl, rfl, rfl, rfl, .inr ⟨rfl, hc⟩⟩

/-- Neither are the bytes consumed. -/
theorem Invisible.of_consumed {bs : List Byte} {s t : State} (h : Invisible (consumed bs s) t) : Invisible s t :=
  ⟨by simpa using h.st, by simpa using h.desc, by simpa using h.blk, by simpa using h.hist, by simpa using h.pending,
    by simpa using h.dst, by simpa using h.modeErr⟩

/-- HC, unless it commits. -/
theorem exec_hc_invisible {s t : State} {v : Byte} (hm : s.mode = .opened) (hp : s.phase = .reading .hc)
    (h : exec (.hc v) s = .next t) (hfail : t.mode = .failed) : Invisible s t := by
  by_cases hv : v = s.work.hcCalc
  · rw [matchingChecksumStartsTheFrame s v hp hv] at h
    cases h
    cases hm.symm.trans hfail
  · exact .of_next (.of_failedWith (by simp)) (wrongChecksumFails s v hp hv) h

theorem exec_decodeMagicWord_invisible {s t : State} (w : Word32) (hp : s.phase = .reading .magic)
    (h : exec (decodeMagicWord w) s = .next t) : Invisible s t := by
  unfold decodeMagicWord at h
  split at h
  · exact .of_next .of_registers (magicStartsTheDescriptor s hp) h
  · exact .of_next (.of_failedWith (by simp)) (exec_badMagic w hp) h

/-- Every record of the header, unless it commits. -/
theorem exec_decodeField_invisible {p : Position} {s t : State} {bs : List Byte} (hm : s.mode = .opened)
    (hp : s.phase = .reading p) (hhead : HeaderPosition p) (h : exec (decodeField p bs) s = .next t)
    (hfail : p = .hc → t.mode = .failed) : Invisible s t := by
  rcases hhead with rfl | rfl | rfl | rfl | rfl
  · exact exec_decodeMagicWord_invisible _ hp h
  · exact .of_next .of_registers (flagsChooseTheNextField s _ hp) h
  · exact .of_next .of_registers (contentSizeIsNotInterpreted s _ hp) h
  · exact .of_next .of_registers (dictionaryIdIsLatched s _ hp) h
  · exact exec_hc_invisible hm hp h (hfail rfl)

theorem truncate_invisible (p : Position) (got : Nat) (s : State) : Invisible s (truncate p got s) := by
  rw [truncate, raise_fatal_eq rfl]
  exact .of_failedWith (w := s.work) (by simp [BlockError.code])

/-- A step at a header position, unless it commits: the end of the input, a full field or a truncation. -/
theorem step_header_invisible {p : Position} {s t : State} (hm : s.mode = .opened) (hp : s.phase = .reading p)
    (hhead : HeaderPosition p) (h : step s = .next t) (hfail : p = .hc → t.mode = .failed) : Invisible s t := by
  have hf := fetchAt_eq p s
  split at hf
  · rename_i hend
    obtain ⟨rfl, -⟩ := hend
    exact .of_next .of_registers ((step_of_instr hp hf).trans (exec_endOfStream hp)) h
  · split at hf
    · rw [step_of_instr hp hf] at h
      exact (exec_decodeField_invisible (by simpa using hm) (by simpa using hp) hhead h hfail).of_consumed
    · exact .of_next (truncate_invisible p _ _).of_consumed (step_of_truncated hp hf) h

/-- Settles O18: what a step at a header position leaves, field by field. -/
theorem headerIsInvisibleUntilCommitted : Obligations.HeaderIsInvisibleUntilCommitted := by
  unfold Obligations.HeaderIsInvisibleUntilCommitted
  intro s t p hm hp hhead h hfail
  obtain ⟨hst, hdesc, hblk, hhist, hpend, hdst, hmode⟩ := step_header_invisible hm hp hhead h hfail
  exact ⟨hst, hdesc, hblk, hhist, hpend, hdst, hmode⟩

end Sys2Proof.Machine
end

section
/-! PROOFS. The primitive reader: what each read hands over and consumes, and where the bytes of a cut record or payload
stay (42_primitive_reader.md R131, R132, R136). -/

namespace Sys2Proof.Machine

open Sys2Proof.Claims

/-! ## The end of the input -/

theorem unread_eq_nil_iff (s : State) : unread s = [] ↔ s.input.length ≤ s.pos := List.drop_eq_nil_iff

/-- Reading all that is left takes the position to the end of the input (20_memory.md R60). -/
theorem pos_add_length_unread {s : State} (h : s.pos ≤ s.input.length) :
    s.pos + (unread s).length = s.input.length := by
  rw [length_unread]
  omega

/-! ## The fixed-width reads -/

/-- Settles O3: the decoder's three branches are the clean end, the short field and the full field, and only the second
is an error. -/
theorem shortFieldsAreRejected : Obligations.ShortFieldsAreRejected := by
  unfold Obligations.ShortFieldsAreRejected
  intro p bs e
  unfold decodeAt
  split
  · rename_i hend
    simp [hend]
  · rename_i hmore
    split
    · rename_i hshort
      simp [hshort, hmore, eq_comm]
    · rename_i hfull
      simp [hfull]

/-- Settles O28: an expected read consumes the next n bytes, or all that are left. -/
theorem readExactContract : Obligations.ReadExactContract := by
  unfold Obligations.ReadExactContract
  intro n s hpos hroom
  have hleft := length_unread s
  rw [readExact_eq, ← hleft]
  split
  · rename_i hfull
    have hlen : ((unread s).take n).length = n := List.length_take_of_le hfull
    have hfield := consumed_eq ((unread s).take n) s
    rw [hlen] at hfield
    exact ⟨_, rfl, scratchBytes_consumed _ s (hlen.symm ▸ hroom), hfield⟩
  · have hcut := consumed_eq (unread s) s
    rw [pos_add_length_unread hpos] at hcut
    exact ⟨_, rfl, hcut⟩

/-- Settles O29: with a byte left the optional read takes the branches of the expected read. -/
theorem tryReadExactContract : Obligations.TryReadExactContract := by
  unfold Obligations.TryReadExactContract
  intro s
  rw [tryReadExact_eq (by decide), readExact_eq]
  constructor
  · intro hend
    rw [if_pos ((unread_eq_nil_iff s).mpr hend)]
  · intro hmore
    rw [if_neg ((unread_eq_nil_iff s).not.mpr (Nat.not_le.mpr hmore))]

/-! ## The payload read -/

/-- Payload bytes consumed move the position and are written to the payload buffer; no other field changes. -/
theorem loaded_of_blk {s : State} {b : Buffer} (h : s.blk = some b) (i : Nat) (bs : List Byte) :
    loaded i bs s = { s with pos := s.pos + bs.length, blk := some (Buffer.writeBytes b i bs) } := by
  rw [loaded_eq, h]
  rfl

theorem readPayload_of_full {s : State} {b : Buffer} {n : Nat} (hb : s.blk = some b) (hfull : n ≤ (unread s).length) :
    readPayload n s =
      .complete { s with pos := s.pos + n, blk := some (Buffer.writeBytes b 0 ((unread s).take n)) } := by
  rw [readPayload_eq, if_pos hfull, loaded_of_blk hb, List.length_take_of_le hfull]

theorem readPayload_of_cut {s : State} {b : Buffer} {n : Nat} (hb : s.blk = some b) (hcut : (unread s).length < n) :
    readPayload n s =
      .short (unread s).length
        { s with pos := s.pos + (unread s).length, blk := some (Buffer.writeBytes b 0 (unread s)) } := by
  rw [readPayload_eq, if_neg (Nat.not_le.mpr hcut), loaded_of_blk hb]

/-- Settles O30: the payload read consumes the next n bytes, or all that are left, and writes them from offset 0. -/
theorem payloadReadContract : Obligations.PayloadReadContract := by
  unfold Obligations.PayloadReadContract
  intro n s b hb hpos
  rw [← length_unread]
  by_cases hfull : n ≤ (unread s).length
  · exact ⟨_, n, (Nat.min_eq_left hfull).symm, Overwritten.writeBytes b 0 ((unread s).take n),
      (readPayload_of_full hb hfull).trans (if_pos hfull).symm⟩
  · have hcut : (unread s).length < n := Nat.not_le.mp hfull
    have hread := readPayload_of_cut hb hcut
    rw [pos_add_length_unread hpos] at hread
    have hwritten : Overwritten b (Buffer.writeBytes b 0 (unread s)) 0 ((unread s).take (unread s).length) := by
      rw [List.take_length]
      exact Overwritten.writeBytes b 0 (unread s)
    exact ⟨_, _, (Nat.min_eq_right hcut.le).symm, hwritten, hread.trans (if_neg hfull).symm⟩

/-! ## Truncation (42_primitive_reader.md R131, R136) -/

/-- A step over a record that is cut short: its bytes are consumed into the scratch, then the READ fails. -/
theorem step_of_cut {p : Position} {s : State} (hp : s.phase = .reading p) (hcut : (unread s).length < p.width)
    (hmore : ¬(p = .magic ∧ unread s = [])) :
    step s = .next (failedWith 3#4 (.truncatedStream (.fixed p) (unread s).length p.width) (consumed (unread s) s)) := by
  have hfetch : fetchAt p s = .truncated p (unread s).length (consumed (unread s) s) := by
    rw [fetchAt_eq, if_neg hmore, if_neg (Nat.not_le.mpr hcut)]
  rw [step_of_truncated hp hfetch, truncate, raise_fatal_eq rfl]
  rfl

/-- A data block whose payload is cut short: its bytes are written to the payload buffer, then the READ fails. -/
theorem dataBlock_of_cut {s : State} {d : FrameDescriptor} {b : Buffer} {h : List Byte} {len : Word31} (raw : Bool)
    (hf : InFrame s d b h) (hle : len.toNat ≤ d.maxBlockSize) (hcut : (unread s).length < len.toNat) :
    dataBlock raw len s =
      .next (failedWith 3#4 (.truncatedStream .payload (unread s).length len.toNat)
        { latched raw len s with
          pos := s.pos + (unread s).length
          blk := some (Buffer.writeBytes b 0 (unread s)) }) := by
  have hfit : len.toNat ≤ b.size := hle.trans hf.capacity
  simp only [dataBlock, hf.desc, hf.blk, if_neg (Nat.not_lt.mpr hle), if_neg (Nat.not_lt.mpr hfit)]
  rw [readPayload_of_cut (s := latchBlockWord raw len s) hf.blk hcut]
  simp only
  rw [raise_fatal_eq rfl]
  rfl

/-- Settles O26: a cut record or payload fails after its bytes were stored, and neither the storing nor the failure
touches the history, the pending window or the destination. -/
theorem truncationReachesNoHistory : Obligations.TruncationReachesNoHistory := by
  unfold Obligations.TruncationReachesNoHistory
  constructor
  · intro s p hp hpos hcut hmore
    exact ⟨_, step_of_cut hp hcut hmore, rfl, rfl, by simp [failedWith, pos_add_length_unread hpos],
      consumed_hist _ s, consumed_pending _ s, consumed_st _ s, consumed_desc _ s, consumed_dst _ s, consumed_blk _ s,
      consumed_scur _ s, scratchBytes_consumed _ s, by simp [failedWith]⟩
  · intro s d b h len hp hf hpos hle hcut i hi
    obtain ⟨raw, hexec⟩ : ∃ raw, exec i s = dataBlock raw len s := by
      rcases hi with rfl | rfl
      · exact ⟨true, atPosition_eq _ hp⟩
      · exact ⟨false, atPosition_eq _ hp⟩
    exact ⟨_, hexec.trans (dataBlock_of_cut raw hf hle hcut), rfl, rfl, pos_add_length_unread hpos, rfl, rfl, rfl, rfl,
      rfl, rfl, rfl, ⟨_, rfl, Overwritten.writeBytes b 0 _⟩, rfl⟩

end Sys2Proof.Machine
end

section
/-! PROOFS. The records of a block: a data block from its word on, the block checksum, and the end of the frame
(43_block_reader.md R150 to R164). -/

namespace Sys2Proof.Machine

open Sys2Proof.Claims

/-! ## The end of a frame (43_block_reader.md R153 to R155) -/

/-- A READ that still wants bytes looks for the next frame (44_drain_and_host.md R195). -/
theorem endFrame_eq {s : State} (h : 0 < s.work.remaining) : endFrame s = enterHeader (teardown s) :=
  loopTop_header h.ne' rfl

/-- Settles O19: the terminator's two continuations, by the frame's content-checksum flag. -/
theorem terminatorEndsTheFrame : Obligations.TerminatorEndsTheFrame := by
  unfold Obligations.TerminatorEndsTheFrame
  intro s d hp hd hwant
  rw [exec, execBlockEnd, atPosition_eq _ hp]
  simp only [hd]
  rw [terminate, endFrame_eq]
  · split <;> rfl
  · exact hwant

theorem trailerCheck_eq {s : State} {h : List Byte} (v : Word32) (hh : s.hist = some h) (hwant : 0 < s.work.remaining) :
    trailerCheck v s =
      if s.verifyContent = true ∧ v ≠ Config.hash32 h then
        failedWith 12#4 (.contentChecksumMismatch (Config.hash32 h) v) s
      else enterHeader (teardown s) := by
  rw [trailerCheck, hh, Option.getD_some, raise_fatal_eq rfl, endFrame_eq hwant]
  rfl

/-- Settles O20: the trailer's mismatch needs the option on; every other trailer tears the frame down. -/
theorem contentChecksumEndsTheFrame : Obligations.ContentChecksumEndsTheFrame := by
  unfold Obligations.ContentChecksumEndsTheFrame
  intro s h v hp hh hwant
  rw [exec, execContentChecksum, atPosition_eq _ hp, trailerCheck_eq]
  · rfl
  · exact hh
  · exact hwant

/-! ## What a block produces (43_block_reader.md R160 to R163) -/

/-- The bytes a block produced are all pending, so the copy starts at the first of them (44_drain_and_host.md R200). -/
theorem drainBytes_appendHistory {s : State} {h : List Byte} (hh : s.hist = some h) (out : List Byte) :
    drainBytes (appendHistory out s) = out.take (min s.work.remaining out.length) := by
  simp [drainBytes, drainCount, hh]

/-- After a block the loop drains what it produced, or reads the next block word; the frame state it passed through is
not seen afterwards. -/
theorem produced_afterDispatch {s : State} {d : FrameDescriptor} {b : Buffer} {h : List Byte} (hf : InFrame s d b h)
    (x : FrameState) (out : List Byte) : Produced s h out (afterDispatch out (setSt x s)) := by
  have hwant : (appendHistory out (setSt x s)).work.remaining ≠ 0 := hf.wanted.ne'
  have hbytes := drainBytes_appendHistory (s := setSt x s) hf.hist out
  unfold Produced
  split
  · rename_i hempty
    subst hempty
    rw [afterDispatch, loopTop_block hwant hf.desc rfl, appendHistory, setSt_hist, hf.hist, Option.getD_some,
      List.append_nil]
    rfl
  · rename_i hsome
    have hpend : (appendHistory out (setSt x s)).pending ≠ 0 := mt List.length_eq_zero_iff.mp hsome
    refine ⟨_, Overwritten.writeBytes s.dst s.work.dOff _, ?_⟩
    rw [afterDispatch, loopTop_drain hwant hf.desc hpend, drainAndReturn, drain, hbytes, appendHistory, setSt_hist,
      hf.hist]
    rfl

theorem raise_codecError (info : CodecErrorInfo) (s : State) :
    raise (.codecError info) s = failedWith 6#4 (.codecError info) s := raise_fatal_eq rfl s

theorem decodeBlock_of_err {s : State} {h payload : List Byte} {d : FrameDescriptor} {f : CodecFault}
    (hh : s.hist = some h) (hf : Config.codecDecode d h payload = .err f) :
    decodeBlock d payload s = failedWith 6#4 (.codecError (.fault f)) (setSt .haveCompressedBlock s) := by
  simp only [decodeBlock, hh, Option.getD_some, hf, raise_codecError]

theorem decodeBlock_of_ok {s : State} {h payload out : List Byte} {d : FrameDescriptor}
    (hh : s.hist = some h) (hout : Config.codecDecode d h payload = .ok out) :
    decodeBlock d payload s =
      if d.maxBlockSize < out.length then
        failedWith 6#4 (.codecError .outputTooLarge) (setSt .haveCompressedBlock s)
      else afterDispatch out (setSt .haveCompressedBlock s) := by
  simp only [decodeBlock, hh, Option.getD_some, hout, raise_codecError]

theorem decoded_decodeBlock {s : State} {d : FrameDescriptor} {b : Buffer} {h : List Byte} (hf : InFrame s d b h)
    (payload : List Byte) : Decoded d h payload s (decodeBlock d payload s) := by
  unfold Decoded
  cases hans : Config.codecDecode d h payload with
  | err f => exact decodeBlock_of_err hf.hist hans
  | ok out =>
    simp only [decodeBlock_of_ok hf.hist hans]
    split
    · rfl
    · exact produced_afterDispatch hf _ out

/-- t is s after a block with that payload was dispatched: a raw block produces the payload, a compressed one what the
codec answers. -/
def Dispatched (d : FrameDescriptor) (h payload : List Byte) (s t : State) : Prop :=
  if s.work.blkRaw = true then Produced s h payload t else Decoded d h payload s t

theorem dispatched_dispatchPayload {s : State} {d : FrameDescriptor} {b : Buffer} {h : List Byte} (hf : InFrame s d b h)
    (payload : List Byte) : Dispatched d h payload s (dispatchPayload d payload s) := by
  unfold Dispatched dispatchPayload
  split
  · exact produced_afterDispatch hf _ payload
  · exact decoded_decodeBlock hf payload

/-! ## A data block from its word on (43_block_reader.md R157 to R159) -/

/-- s after a data block's word was latched and its payload consumed into the payload buffer b. -/
def withPayload (raw : Bool) (len : Word31) (b : Buffer) (s : State) : State :=
  { latched raw len s with
    pos := s.pos + len.toNat, blk := some (Buffer.writeBytes b 0 ((unread s).take len.toNat)) }

/-- A data block is refused, stops, is cut short or has its payload, by sizes alone. -/
theorem dataBlock_eq {s : State} {d : FrameDescriptor} {b : Buffer} (hd : s.desc = some d) (hb : s.blk = some b)
    (raw : Bool) (len : Word31) :
    dataBlock raw len s =
      if d.maxBlockSize < len.toNat then
        .next (failedWith 5#4 (.blockTooLarge len.toNat d.maxBlockSize) (latched raw len s))
      else if b.size < len.toNat then .fault .outsideBuffer
      else if len.toNat ≤ (unread s).length then afterPayload (withPayload raw len b s)
      else
        .next (failedWith 3#4 (.truncatedStream .payload (unread s).length len.toNat)
          { latched raw len s with
            pos := s.pos + (unread s).length, blk := some (Buffer.writeBytes b 0 (unread s)) }) := by
  have hb' : (latchBlockWord raw len s).blk = some b := hb
  simp only [dataBlock, hd, hb]
  rw [raise_fatal_eq rfl]
  by_cases hfull : len.toNat ≤ (unread s).length
  · rw [readPayload_of_full hb' hfull, if_pos hfull]
    rfl
  · rw [readPayload_of_cut hb' (Nat.not_le.mp hfull), if_neg hfull]
    simp only
    rw [raise_fatal_eq rfl]
    rfl

/-- The payload stands in the buffer as it was consumed (42_primitive_reader.md R136). -/
theorem readBytes_writeBytes_take {n : Nat} {bs : List Byte} (h : n ≤ bs.length) (b : Buffer) :
    Buffer.readBytes (Buffer.writeBytes b 0 (bs.take n)) 0 n = some (bs.take n) := by
  have hread := Buffer.readBytes_writeBytes b 0 (bs.take n)
  rwa [List.length_take_of_le h] at hread

theorem dispatch_of_readBytes {s : State} {d : FrameDescriptor} {b : Buffer} {h payload : List Byte}
    (hf : InFrame s d b h) (hread : Buffer.readBytes b 0 s.work.blkLen.toNat = some payload) :
    dispatch d b s = .next (dispatchPayload d payload s) := by
  simp only [dispatch, hread, if_neg (Nat.not_lt.mpr hf.window)]

theorem afterPayload_eq {s : State} {d : FrameDescriptor} {b : Buffer} (hd : s.desc = some d) (hb : s.blk = some b) :
    afterPayload s =
      if d.blockChecksumEnabled then .next (expect .blockChecksum s) else dispatch d b s := by
  simp only [afterPayload, hd, hb]

theorem inFrame_withPayload {s : State} {d : FrameDescriptor} {b : Buffer} {h : List Byte} (hf : InFrame s d b h)
    (raw : Bool) (len : Word31) :
    InFrame (withPayload raw len b s) d (Buffer.writeBytes b 0 ((unread s).take len.toNat)) h :=
  ⟨hf.desc, rfl, hf.hist, hf.wanted, hf.window, hf.capacity⟩

/-- A data block that fits and is not cut short: its checksum is awaited, or its payload is dispatched. -/
theorem dataBlock_of_full {s : State} {d : FrameDescriptor} {b : Buffer} {h : List Byte} {len : Word31} (raw : Bool)
    (hf : InFrame s d b h) (hle : len.toNat ≤ d.maxBlockSize) (hfull : len.toNat ≤ (unread s).length) :
    ∃ t, dataBlock raw len s = .next t ∧
      if d.blockChecksumEnabled then t = { withPayload raw len b s with phase := .reading .blockChecksum }
      else Dispatched d h ((unread s).take len.toNat) (withPayload raw len b s) t := by
  have hfit : len.toNat ≤ b.size := hle.trans hf.capacity
  have hf' := inFrame_withPayload hf raw len
  rw [dataBlock_eq hf.desc hf.blk, if_neg (Nat.not_lt.mpr hle), if_neg (Nat.not_lt.mpr hfit), if_pos hfull,
    afterPayload_eq hf'.desc hf'.blk]
  split
  · exact ⟨_, rfl, rfl⟩
  · exact ⟨_, dispatch_of_readBytes hf' (readBytes_writeBytes_take hfull b), dispatched_dispatchPayload hf' _⟩

/-- Settles O24: the size bound is checked before the payload, for both kinds of block. -/
theorem oversizedBlockIsRefused : Obligations.OversizedBlockIsRefused := by
  unfold Obligations.OversizedBlockIsRefused
  intro s d b h len hp hf hlarge
  have hrefused (raw : Bool) := (dataBlock_eq hf.desc hf.blk raw len).trans (if_pos hlarge)
  exact ⟨(atPosition_eq _ hp).trans (hrefused true), (atPosition_eq _ hp).trans (hrefused false)⟩

/-- Settles O22: the raw case of a data block that has its payload. -/
theorem rawBlockProducesItsPayload : Obligations.RawBlockProducesItsPayload := by
  unfold Obligations.RawBlockProducesItsPayload
  intro s d b h len hp hf hle hfull
  obtain ⟨t, ht, hout⟩ := dataBlock_of_full true hf hle hfull
  exact ⟨t, _, (atPosition_eq _ hp).trans ht, Overwritten.writeBytes b 0 _, hout⟩

/-- Settles O23: the compressed case of a data block that has its payload. -/
theorem compressedBlockIsDecoded : Obligations.CompressedBlockIsDecoded := by
  unfold Obligations.CompressedBlockIsDecoded
  intro s d b h len hp hf hle hfull
  obtain ⟨t, ht, hout⟩ := dataBlock_of_full false hf hle hfull
  exact ⟨t, _, (atPosition_eq _ hp).trans ht, Overwritten.writeBytes b 0 _, hout⟩

/-- An empty payload leaves the position and the payload buffer alone. -/
theorem withPayload_zero {s : State} {b : Buffer} (hb : s.blk = some b) (raw : Bool) :
    withPayload raw 0#31 b s = latched raw 0#31 s := by
  have hsame : latched raw 0#31 s = { latched raw 0#31 s with blk := some b } := by rw [← hb]; rfl
  exact hsame.symm

/-- Settles O21: the raw case of a data block with the empty payload, which every input has. -/
theorem emptyRawBlockProducesNothing : Obligations.EmptyRawBlockProducesNothing := by
  unfold Obligations.EmptyRawBlockProducesNothing
  intro s d b h hp hf
  obtain ⟨t, ht, hout⟩ := dataBlock_of_full (len := 0#31) true hf (Nat.zero_le _) (Nat.zero_le _)
  rw [withPayload_zero hf.blk] at hout
  have hexec : exec .blockRawEmpty s = .next t := (atPosition_eq _ hp).trans ht
  exact ⟨t, hexec, (execBlockRawEmpty_keepsDesc s t hexec).trans hf.desc, hout⟩

theorem checkBlockChecksum_of_readBytes {s : State} {d : FrameDescriptor} {b : Buffer} {h payload : List Byte}
    {v : Word32} (hf : InFrame s d b h) (hread : Buffer.readBytes b 0 s.work.blkLen.toNat = some payload) :
    checkBlockChecksum v s =
      .next (verifyThenDispatch v d payload (onWork (fun w => { w with bcsReg := v }) s)) := by
  simp only [checkBlockChecksum, hf.desc, hf.blk, hread, if_neg (Nat.not_lt.mpr hf.window)]

/-- The comparison fails the READ, or the payload is dispatched (43_block_reader.md R159). -/
theorem verifyThenDispatch_mismatch_or_dispatched {s : State} {d : FrameDescriptor} {b : Buffer} {h : List Byte}
    (hf : InFrame s d b h) (v : Word32) (payload : List Byte) :
    if s.verifyBlock = true ∧ v ≠ Config.hash32 payload then
      verifyThenDispatch v d payload s = failedWith 11#4 (.blockChecksumMismatch (Config.hash32 payload) v) s
    else Dispatched d h payload s (verifyThenDispatch v d payload s) := by
  rw [verifyThenDispatch, raise_fatal_eq rfl]
  split
  · rfl
  · exact dispatched_dispatchPayload hf payload

/-- Settles O25: the payload is read back from the buffer, compared when the option is on, and dispatched. -/
theorem blockChecksumThenDispatch : Obligations.BlockChecksumThenDispatch := by
  unfold Obligations.BlockChecksumThenDispatch
  intro s d b h v payload hp hf hread
  have hf' : InFrame (onWork (fun w => { w with bcsReg := v }) s) d b h :=
    ⟨hf.desc, hf.blk, hf.hist, hf.wanted, hf.window, hf.capacity⟩
  exact ⟨_, (atPosition_eq _ hp).trans (checkBlockChecksum_of_readBytes hf hread),
    verifyThenDispatch_mismatch_or_dispatched hf' v payload⟩

/-! ## The descriptor fields a raw block does not read (43_block_reader.md R164) -/

/-- s with the descriptor d in its place. -/
def withDesc (d : FrameDescriptor) (s : State) : State := { s with desc := some d }

/-- Where one run answers a next state, the other answers the same state with the descriptor d. -/
def SameBut (d : FrameDescriptor) (o o' : Host.Outcome State Fault Refusal) : Prop :=
  ∀ t, o = .next t → o' = .next (withDesc d t)

theorem SameBut.next (d : FrameDescriptor) (t : State) : SameBut d (.next t) (.next (withDesc d t)) := by
  rintro _ ⟨⟩
  rfl

theorem SameBut.fault (d : FrameDescriptor) (f : Fault) : SameBut d (.fault f) (.fault f) := fun _ hu => nomatch hu

section
variable {s : State} {d : FrameDescriptor} (d' : FrameDescriptor)

/-- The read loop asks whether a frame is active, and nothing about its descriptor. -/
theorem loopTop_withDesc (hd : s.desc = some d) : loopTop (withDesc d' s) = withDesc d' (loopTop s) := by
  have hd' : (withDesc d' s).desc = some d' := rfl
  by_cases hdone : s.work.remaining = 0
  · rw [loopTop_return hdone, loopTop_return (s := withDesc d' s) hdone]
    rfl
  · by_cases hpend : s.pending = 0
    · rw [loopTop_block hdone hd hpend, loopTop_block (s := withDesc d' s) hdone hd' hpend]
      rfl
    · rw [loopTop_drain hdone hd hpend, loopTop_drain (s := withDesc d' s) hdone hd' hpend]
      rfl

theorem dispatchPayload_raw_withDesc (hd : s.desc = some d) (hraw : s.work.blkRaw = true) (payload : List Byte) :
    dispatchPayload d' payload (withDesc d' s) = withDesc d' (dispatchPayload d payload s) := by
  have hraw' : (withDesc d' s).work.blkRaw = true := hraw
  rw [dispatchPayload, dispatchPayload, if_pos hraw, if_pos hraw']
  exact loopTop_withDesc (s := appendHistory payload (setSt .haveRawBlock s)) d' hd

theorem dispatch_raw_sameBut (hd : s.desc = some d) (hraw : s.work.blkRaw = true) (b : Buffer) :
    SameBut d' (dispatch d b s) (dispatch d' b (withDesc d' s)) := by
  have hwork : (withDesc d' s).work = s.work := rfl
  have hdst : (withDesc d' s).dst = s.dst := rfl
  rw [dispatch, dispatch, hwork, hdst]
  cases Buffer.readBytes b 0 s.work.blkLen.toNat with
  | none => exact .fault d' _
  | some payload =>
    simp only [dispatchPayload_raw_withDesc d' hd hraw]
    split
    · exact .fault d' _
    · exact .next d' _

theorem afterPayload_raw_sameBut (hd : s.desc = some d) (hraw : s.work.blkRaw = true) {b : Buffer}
    (hb : s.blk = some b) (hsum : d'.blockChecksumEnabled = d.blockChecksumEnabled) :
    SameBut d' (afterPayload s) (afterPayload (withDesc d' s)) := by
  have hb' : (withDesc d' s).blk = some b := hb
  rw [afterPayload_eq hd hb, afterPayload_eq rfl hb', hsum]
  split
  · exact .next d' _
  · exact dispatch_raw_sameBut d' hd hraw b

/-- Of the descriptor a raw block reads the block size and the block-checksum flag only. -/
theorem dataBlock_raw_sameBut (hd : s.desc = some d) (hsize : d'.maxBlockSize = d.maxBlockSize)
    (hsum : d'.blockChecksumEnabled = d.blockChecksumEnabled) (len : Word31) :
    SameBut d' (dataBlock true len s) (dataBlock true len (withDesc d' s)) := by
  cases hb : s.blk with
  | none =>
    intro t ht
    simp [dataBlock, hd, hb] at ht
  | some b =>
    have hb' : (withDesc d' s).blk = some b := hb
    have hunread : unread (withDesc d' s) = unread s := rfl
    rw [dataBlock_eq hd hb, dataBlock_eq rfl hb', hsize, hunread]
    split
    · exact .next d' _
    split
    · exact .fault d' _
    split
    · exact afterPayload_raw_sameBut (s := withPayload true len b s) d' hd rfl rfl hsum
    · exact .next d' _

end

/-- Settles O27: the chaining flag and the dictionary ID are neither of the two fields a raw block reads. -/
theorem chainingDoesNotFrameRawBlocks : Obligations.ChainingDoesNotFrameRawBlocks := by
  unfold Obligations.ChainingDoesNotFrameRawBlocks
  intro s d chain dict len t ht
  obtain ⟨hp, ht⟩ := atPosition_next ht
  have hsame := dataBlock_raw_sameBut (s := withDesc d s) (d := d)
    { d with blockChainingEnabled := chain, dictionaryId := dict } rfl rfl rfl len
  rw [exec, execBlockRaw, atPosition_eq]
  · exact hsame t ht
  · exact hp

end Sys2Proof.Machine
end

section
/-! PROOFS. The host commands: what each answers in each mode, what a READ delivers, and that every command and every
step answers (44_drain_and_host.md R190 to R207). -/

namespace Sys2Proof.Machine

open Sys2Proof.Claims

/-! ## The commands the mode lets through or refuses -/

/-- An error that is not fatal ends the command and changes nothing else (60_exceptions.md R231). -/
theorem raise_nonfatal_eq {e : BlockError} (h : e.fatal = false) (s : State) :
    raise e s = ended (.error e.code e) s := by
  rw [raise, recordError, h]
  rfl

/-- Between commands the result is all that the end of a command adds. -/
theorem finish_of_idle {s : State} (hp : s.phase = .idle) (r : CmdResult) :
    finish r s = { s with results := s.results ++ [r] } := by
  rw [finish, ← hp]

/-- Every command but CLOSE is guarded by the mode (44_drain_and_host.md R190). -/
theorem exec_eq_command {i : Instr} (hi : RefusableCommand i) : ∃ f, ∀ s, exec i s = command f s := by
  rcases hi with ⟨d, o, m, rfl⟩ | ⟨d, o, m, c, rfl⟩ | rfl | rfl | rfl | rfl | rfl <;> exact ⟨_, fun _ => rfl⟩

theorem exec_read_opened {s : State} (hp : s.phase = .idle) (hm : s.mode = .opened) (d : Buffer) (o : Nat) (m : Int) :
    exec (.read d o m) s = readBody d o m s :=
  command_opened _ hp hm

theorem unsupported_opened {s : State} (hp : s.phase = .idle) (hm : s.mode = .opened) (code : BitVec 3) :
    unsupported code s = .next (ended (.error 4#4 (.invalidOperation code)) s) := by
  rw [unsupported, command_opened _ hp hm, raise_nonfatal_eq rfl]
  rfl

/-! ## Every command and every step answers (44_drain_and_host.md R207) -/

/-- A command that answers with one result, and whose answers are safe, has ended in a state of the invariant. -/
theorem OneResult.exists_inv {s : State} {o : Host.Outcome State Fault Refusal} (hone : OneResult s o)
    (hsafe : Safe s o) : ∃ t r, o = .next t ∧ t.phase = .idle ∧ t.results = s.results ++ [r] ∧ StateInv t := by
  obtain ⟨t, r, ht, hidle, -, hres⟩ := hone
  exact ⟨t, r, ht, hidle, hres, (hsafe t ht).inv⟩

/-- Settles O34: a READ in an open block ends because each of its steps that does not end it consumes input, and
everything it answers keeps the invariant. -/
theorem everyReadEnds : Obligations.EveryReadEnds := by
  unfold Obligations.EveryReadEnds
  intro s d o m h hp hd
  constructor
  · have hone : OneResult s (exec (.read d o m) s) := command_oneResult hp fun hm => readBody_oneResult h hp hm hd o m
    have hsafe : Safe s (exec (.read d o m) s) := command_safe h hp fun hm => readBody_safe h hp hm hd o m
    exact hone.exists_inv hsafe
  · intro c
    have hone : OneResult s (exec (.readAsync d o m c) s) :=
      command_oneResult hp fun hm => readAsyncBody_oneResult h hp hm hd o m c
    have hsafe : Safe s (exec (.readAsync d o m c) s) :=
      command_safe h hp fun hm => readAsyncBody_safe h hp hm hd o m c
    exact hone.exists_inv hsafe

/-- Settles O51: the port's head is taken and decoded. -/
theorem stepRunsTheCommand : Obligations.StepRunsTheCommand := by
  unfold Obligations.StepRunsTheCommand
  intro s c rest hp hc
  exact step_command hp hc

/-- Settles O49: a step is a record of a READ, no command at all, or a command, which `CommandIsOneStep` says ends. -/
theorem stepAlwaysAnswers : Obligations.StepAlwaysAnswers := by
  unfold Obligations.StepAlwaysAnswers
  intro s h
  cases hp : s.phase with
  | reading p =>
    obtain ⟨t, ht, -⟩ := step_advances h hp
    exact ⟨t, ht⟩
  | idle =>
    cases hc : s.cmds with
    | nil => exact ⟨s, step_no_command hp hc⟩
    | cons c rest =>
      obtain ⟨t, -, ht, -⟩ := commandIsOneStep s c rest h hp hc
      exact ⟨t, ht⟩

/-! ## What a READ delivers (44_drain_and_host.md R191 to R200) -/

/-- A READ that returns bytes had good arguments and began its loop. -/
theorem readBody_ok_ends {s t : State} {d : Buffer} {o n : Nat} {m : Int} {bytes : List Byte} (h : StateInv s)
    (hp : s.phase = .idle) (hm : s.mode = .opened) (hd : Buffer.wf d) (ht : readBody d o m s = .next t)
    (hr : t.results = s.results ++ [.ok n bytes]) :
    GoodArguments d o m ∧ Ends (beginRead d o m s) t (.ok n bytes) := by
  by_cases ha : GoodArguments d o m
  · obtain ⟨t', ht', hpiece, hidle⟩ := readBody_ends h hp hm hd ha
    obtain rfl : t' = t := Host.Outcome.next.inj (ht'.symm.trans ht)
    exact ⟨ha, hpiece.ends hidle hr⟩
  · rw [readBody_bad ha] at ht
    cases ht
    simp at hr

/-- Settles O35: what `Ends` says of a READ that returned, from the counters its loop starts with. -/
theorem readReturnsWhatItWrote : Obligations.ReadReturnsWhatItWrote := by
  unfold Obligations.ReadReturnsWhatItWrote
  intro s d o m t n bytes h hp hm hd hx hr
  rw [exec_read_opened hp hm] at hx
  obtain ⟨⟨hnonneg, -, -⟩, hlen, hle, hwritten, hzero, hhist⟩ := readBody_ok_ends h hp hm hd hx hr
  have hle' : n ≤ m.toNat := hle
  have hnone : (beginRead d o m s).work.remaining = 0 ↔ m = 0 := by
    simp only [beginRead_work]
    omega
  exact ⟨hlen, by omega, hwritten, by rw [hzero, hnone], hhist⟩

/-- A READ that ends before its first record is read. -/
theorem readBody_of_loopTop_idle {s : State} {d : Buffer} {o : Nat} {m : Int} (ha : GoodArguments d o m)
    (hdrain : drainsTooMuch m s = false) (hidle : (loopTop (beginRead d o m s)).phase = .idle) :
    readBody d o m s = .next (loopTop (beginRead d o m s)) := by
  rw [readBody_good ha, hdrain, if_neg Bool.false_ne_true, runRecords_idle hidle]

/-- Settles O33: with bytes pending the loop drains at once, and the oldest pending bytes are the last of the history
that are still owed. -/
theorem readDrainsThePendingWindow : Obligations.ReadDrainsThePendingWindow := by
  unfold Obligations.ReadDrainsThePendingWindow
  intro s d o m fd h hp hm ha hpos hd hh hpend hle k bytes
  have hbytes : bytes.length = k := by
    simp only [bytes, k, List.length_take, List.length_drop]
    omega
  have hdrained : drainBytes (beginRead d o m s) = bytes := by simp [drainBytes, drainCount, hh, bytes, k]
  have hwant : (beginRead d o m s).work.remaining ≠ 0 := by
    simp only [beginRead_work]
    omega
  have hloop : loopTop (beginRead d o m s) = drainAndReturn (beginRead d o m s) := loopTop_drain hwant hd hpend.ne'
  have hfits : drainsTooMuch m s = false := by simp [drainsTooMuch, hh, hle]
  refine ⟨Buffer.writeBytes d o bytes, Overwritten.writeBytes d o bytes, hbytes, ?_⟩
  rw [exec_read_opened hp hm, readBody_of_loopTop_idle ha hfits (by rw [hloop]; rfl), hloop, drainAndReturn,
    returnRead, finish_of_idle (s := drain (beginRead d o m s)) hp, drain, hdrained]
  simp [drainCount, beginRead, k]

/-- Settles O31: nothing is asked for, so the loop returns before it reads anything. -/
theorem zeroLengthReadReturnsZero : Obligations.ZeroLengthReadReturnsZero := by
  unfold Obligations.ZeroLengthReadReturnsZero
  intro s d o hp hm ho
  have ha : GoodArguments d o 0 := ⟨le_refl _, by decide, by omega⟩
  have hloop : loopTop (beginRead d o 0 s) = returnRead [] (beginRead d o 0 s) := loopTop_return rfl
  rw [exec_read_opened hp hm, readBody_of_loopTop_idle ha rfl (by rw [hloop]; rfl), hloop, returnRead,
    finish_of_idle (s := beginRead d o 0 s) hp]
  rfl

/-- Settles O32: the argument check comes before the loop, and its error is not fatal. -/
theorem badArgumentsAreRefused : Obligations.BadArgumentsAreRefused := by
  unfold Obligations.BadArgumentsAreRefused
  intro s d o m hp hm ha
  rw [exec_read_opened hp hm, readBody_bad ha, raise_nonfatal_eq rfl]
  rfl

/-- Settles O37: without a cancellation the two commands share their body, and with one the draw comes before it. -/
theorem readAsyncIsReadOrCancelled : Obligations.ReadAsyncIsReadOrCancelled := by
  unfold Obligations.ReadAsyncIsReadOrCancelled
  refine ⟨fun s d o m => rfl, fun s d o m hp hm => ?_⟩
  have hbody : exec (.readAsync d o m true) s = readAsyncBody d o m true s := command_opened _ hp hm
  have hread : exec (.read d o m) { s with draws := s.draws + 1 } = readBody d o m (takeDraw s).2 :=
    exec_read_opened (s := (takeDraw s).2) hp hm d o m
  rw [hbody, hread, readAsyncBody, if_pos rfl, raise_nonfatal_eq rfl]
  rfl

/-! ## CLOSE, and the commands that are refused (44_drain_and_host.md R202 to R205) -/

theorem exec_close_closed {s : State} (hp : s.phase = .idle) (hm : s.mode = .closed) :
    exec .close s = .next (ended .done s) := by
  simp only [exec, execClose, hp, hm]
  rfl

/-- CLOSE of a block that is open or failed. -/
theorem exec_close_of_ne_closed {s : State} (hp : s.phase = .idle) (hm : s.mode ≠ .closed) :
    exec .close s = .next (ended .done (closeBlock s)) := by
  rw [exec, execClose, if_neg (not_not.mpr hp)]
  cases hmode : s.mode with
  | closed => exact absurd hmode hm
  | failed | opened => rfl

/-- Settles O38: the two cases of CLOSE, by whether the block is closed already. -/
theorem closeDiscardsTheFrame : Obligations.CloseDiscardsTheFrame := by
  unfold Obligations.CloseDiscardsTheFrame
  intro s hp
  by_cases hm : s.mode = .closed
  · rw [exec_close_closed hp hm, if_pos hm]
  · rw [exec_close_of_ne_closed hp hm, if_neg hm]
    rfl

/-- Settles O39: each of the five is the refusal of its own code. -/
theorem unsupportedCommandsAreRefused : Obligations.UnsupportedCommandsAreRefused := by
  unfold Obligations.UnsupportedCommandsAreRefused
  intro s hp hm
  have hrefused := unsupported_opened hp hm
  exact ⟨hrefused 3#3, hrefused 4#3, hrefused 5#3, hrefused 6#3, hrefused 7#3⟩

/-- Settles O40: the mode's guard refuses the command before its meaning is asked for. -/
theorem failedBlockRefusesCommands : Obligations.FailedBlockRefusesCommands := by
  unfold Obligations.FailedBlockRefusesCommands
  intro s i hp hm hi
  obtain ⟨f, hf⟩ := exec_eq_command hi
  rw [hf, command_failed f hp hm, raise_nonfatal_eq rfl]
  rfl

/-- Settles O41: CLOSE of a closed block only answers, and the mode's guard refuses every other command. -/
theorem closedBlockRefusesCommands : Obligations.ClosedBlockRefusesCommands := by
  unfold Obligations.ClosedBlockRefusesCommands
  intro s hp hm
  refine ⟨exec_close_closed hp hm, fun i hi => ?_⟩
  obtain ⟨f, hf⟩ := exec_eq_command hi
  rw [hf, command_closed f hp hm, raise_nonfatal_eq rfl]
  rfl

end Sys2Proof.Machine
end

section
/-! PROOFS. The errors: the table of their codes, and what raising one does (60_exceptions.md R230, R231). -/

namespace Sys2Proof.Machine

/-- Settles O43: `code` and `fatal` are the two columns of R230's table; one row per error, in the order of the codes. -/
theorem errorTable : Obligations.ErrorTable := by
  unfold Obligations.ErrorTable
  exact ⟨fun _ => ⟨rfl, rfl⟩, fun _ _ => ⟨rfl, rfl⟩, fun _ _ _ => ⟨rfl, rfl⟩, fun _ => ⟨rfl, rfl⟩,
    fun _ _ => ⟨rfl, rfl⟩, fun _ => ⟨rfl, rfl⟩, fun _ _ => ⟨rfl, rfl⟩, fun _ => ⟨rfl, rfl⟩, ⟨rfl, rfl⟩, ⟨rfl, rfl⟩,
    fun _ _ => ⟨rfl, rfl⟩, fun _ _ => ⟨rfl, rfl⟩⟩

/-- Settles O44: the two ways an error ends a command, told apart by R230's fatal column. -/
theorem errorEntry : Obligations.ErrorEntry := by
  unfold Obligations.ErrorEntry
  intro e s
  split
  · next hfatal => exact raise_fatal_eq hfatal s
  · next hnonfatal => exact raise_nonfatal_eq (Bool.eq_false_of_not_eq_true hnonfatal) s

end Sys2Proof.Machine
end

section
/-! PROOFS. The state after construction: the values the spec gives it, and that it meets the invariant
(70_reset_and_hazards.md R260, R263). -/

namespace Sys2Proof.Machine

/-- Settles O45: each value is the one `State.reset` writes. -/
theorem resetValues : Obligations.ResetValues := by
  unfold Obligations.ResetValues
  exact ⟨rfl, rfl, rfl, rfl, rfl, rfl, rfl, rfl⟩

/-- Construction starts between commands without a frame, and the destination it holds is empty, so only the waiting
commands' destinations are left to ask for. -/
theorem launch_inv {input : List Byte} {vb vc : Bool} {cmds : List HostCmd} (hcmds : ∀ c ∈ cmds, Buffer.wf c.dst) :
    StateInv (State.launch input vb vc cmds) where
  posLe := Nat.zero_le _
  scurLe := Nat.zero_le _
  frame := rfl
  modeOk := rfl
  stOk := ⟨iff_of_true rfl rfl, fun _ => rfl⟩
  phaseOk := trivial
  dstWf := Buffer.wf_fresh 0
  cmdsWf := hcmds

theorem reset_eq_launch : State.reset = State.launch [] false false [] := rfl

/-- Settles O46: reset is the construction over the empty source with no command waiting. -/
theorem launchMeetsTheInvariant : Obligations.LaunchMeetsTheInvariant := by
  unfold Obligations.LaunchMeetsTheInvariant
  refine ⟨?_, fun _ _ _ _ => launch_inv⟩
  rw [reset_eq_launch]
  exact launch_inv (by simp)

end Sys2Proof.Machine
end
